-- ==== Sys2Proof/Word.lean ====
section
/-! DEFINITION. The two widths of the block (`00_scope.md` R6, R7): bytes and 16-bit words. -/

namespace Sys2Proof

/-- `BYTE`, `REG_WIDTH`: 8 bits, bit 0 least significant (R6, R7). -/
abbrev Byte := BitVec 8

/-- `ADDR_WIDTH`: 16 bits; SP, PC, every address and every register pair (R6, R7).
Addition and subtraction on `Word` are the `+16` and `-16` of R8, modulo 65536. -/
abbrev Word := BitVec 16

end Sys2Proof
end

