-- ==== Sys2Proof/Syntax.lean ====
section
/-! DEFINITION. The instructions: one constructor per row of `opcode_table.json`, in the table's order
(`30_encoding.md` R86). Register operands are implied by the opcode (R84); a constructor's argument is the operand
the row's format carries (R82, R83). -/

namespace Sys2Proof

inductive Instr where
  /-- LD SP,d16 (`31 lo hi`), R100. -/
  | ldSpD16 (d16 : Word)
  /-- LD (HL-),A (`32`), R110. -/
  | ldHlDecA
  /-- XOR A (`AF`), R120. -/
  | xorA
  /-- LD HL,d16 (`21 lo hi`), R101. -/
  | ldHlD16 (d16 : Word)
  /-- PREFIX CB (`CB xx`), R150: the row of the prefix itself. A decoder that matches one of the two extended rows
  gives that row (R94), so a decoded `prefixCb` holds one of the 254 unmatched extended opcodes. -/
  | prefixCb (sub : Byte)
  /-- JP NZ,r8 (`20 dd`), R130: `r8` is the displacement byte, two's complement. -/
  | jpNzR8 (r8 : Byte)
  /-- LD C,d8 (`0E nn`), R102. -/
  | ldCD8 (d8 : Byte)
  /-- LD A,d8 (`3E nn`), R103. -/
  | ldAD8 (d8 : Byte)
  /-- LD (C),A (`E2`), R111. -/
  | ldCIndA
  /-- INC C (`0C`), R121. -/
  | incC
  /-- LD (HL),A (`77`), R112. -/
  | ldHlIndA
  /-- LDH (a8),A (`E0 nn`), R113. -/
  | ldhA8A (a8 : Byte)
  /-- LD DE,d16 (`11 lo hi`), R104. -/
  | ldDeD16 (d16 : Word)
  /-- LD A,(DE) (`1A`), R114. -/
  | ldADe
  /-- CALL a16 (`CD lo hi`), R131. -/
  | callA16 (a16 : Word)
  /-- LD C,A (`4F`), R105. -/
  | ldCA
  /-- LD B,d8 (`06 nn`), R106. -/
  | ldBD8 (d8 : Byte)
  /-- PUSH BC (`C5`), R141. -/
  | pushBc
  /-- BIT 7,H (`CB 7C`), R151. -/
  | bit7H
  /-- RL C (`CB 11`), R152. -/
  | rlC
  deriving DecidableEq, Repr

end Sys2Proof
end

