-- ==== Sys2Proof/WellFormed.lean ====
section
/-! DEFINITION. The one check an instruction must pass to be the meaning of its bytes. Every operand value is legal
(`60_exceptions.md` R164); only the row of the prefix is narrowed: the two bytes of the extended table are rows of
their own (`30_encoding.md` R94). -/

namespace Sys2Proof

/-- The extended table's two opcodes, `30_encoding.md` R86 rows E1 and E2. -/
def extendedOpcodes : List Byte := [0x7C#8, 0x11#8]

/-- `prefixCb` stands for an unmatched extended opcode (R89); the two matched ones are `bit7H` and `rlC` (R94). -/
abbrev Instr.WellFormed : Instr → Prop
  | .prefixCb sub => sub ∉ extendedOpcodes
  | .ldSpD16 _ | .ldHlDecA | .xorA | .ldHlD16 _ | .jpNzR8 _ | .ldCD8 _ | .ldAD8 _ | .ldCIndA | .incC | .ldHlIndA
  | .ldhA8A _ | .ldDeD16 _ | .ldADe | .callA16 _ | .ldCA | .ldBD8 _ | .pushBc | .bit7H | .rlC => True

end Sys2Proof
end

