-- ==== Sys2Proof/Decode.lean ====
section
/-! DEFINITION. The decoder, total on any bytes, and the encoder, both from the formats of `30_encoding.md` R82 and the
tables of R86. -/

namespace Sys2Proof

/-- A 16-bit value from its two bytes in memory order, low byte first: `(hi << 8) | lo` (`20_memory.md` R54, R56). -/
def ofBytes (lo hi : Byte) : Word := (hi.zeroExtend 16 <<< 8) ||| lo.zeroExtend 16

/-- `v[7:0]` (R8). -/
def lowByte (v : Word) : Byte := v.extractLsb' 0 8

/-- `v[15:8]` (R8). -/
def highByte (v : Word) : Byte := v.extractLsb' 8 8

/-- Why the decoder gives no instruction. -/
inductive DecodeError where
  /-- No byte at all to decode (the caller's list is empty; a fetch never is). -/
  | noBytes
  /-- A matched opcode whose operand bytes are missing from the list (a fetch always supplies three bytes). -/
  | truncated (opcode : Byte)
  /-- A first byte outside the primary table (R88). -/
  | unmatchedPrimary (opcode : Byte)
  deriving DecidableEq, Repr

/-- The operand of formats `OP_D8`, `OP_A8`, `OP_R8`: the byte after the opcode (R82, R83). -/
def operand8 (opcode : Byte) (k : Byte → Instr) : List Byte → Except DecodeError (Instr × List Byte)
  | n :: rest => .ok (k n, rest)
  | [] => .error (.truncated opcode)

/-- The operand of formats `OP_D16`, `OP_A16`: the two bytes after the opcode, low byte first (R82, R83). -/
def operand16 (opcode : Byte) (k : Word → Instr) : List Byte → Except DecodeError (Instr × List Byte)
  | lo :: hi :: rest => .ok (k (ofBytes lo hi), rest)
  | _ => .error (.truncated opcode)

/-- The extended table, keyed by the byte after 0xCB (R86, R87). -/
def decodeExtended (sub : Byte) : Instr :=
  match sub with
  | 0x7C#8 => .bit7H
  | 0x11#8 => .rlC
  | _ => .prefixCb sub

/-- The primary table, keyed by the first byte (R81, R86): the instruction and the bytes after it, or the reason
there is none. A byte outside the table has no length and no operand is read (R85, R88). -/
def decode : List Byte → Except DecodeError (Instr × List Byte)
  | [] => .error .noBytes
  | opcode :: rest =>
    match opcode with
    | 0x31#8 => operand16 opcode .ldSpD16 rest
    | 0x32#8 => .ok (.ldHlDecA, rest)
    | 0xAF#8 => .ok (.xorA, rest)
    | 0x21#8 => operand16 opcode .ldHlD16 rest
    | 0xCB#8 => operand8 opcode decodeExtended rest
    | 0x20#8 => operand8 opcode .jpNzR8 rest
    | 0x0E#8 => operand8 opcode .ldCD8 rest
    | 0x3E#8 => operand8 opcode .ldAD8 rest
    | 0xE2#8 => .ok (.ldCIndA, rest)
    | 0x0C#8 => .ok (.incC, rest)
    | 0x77#8 => .ok (.ldHlIndA, rest)
    | 0xE0#8 => operand8 opcode .ldhA8A rest
    | 0x11#8 => operand16 opcode .ldDeD16 rest
    | 0x1A#8 => .ok (.ldADe, rest)
    | 0xCD#8 => operand16 opcode .callA16 rest
    | 0x4F#8 => .ok (.ldCA, rest)
    | 0x06#8 => operand8 opcode .ldBD8 rest
    | 0xC5#8 => .ok (.pushBc, rest)
    | _ => .error (.unmatchedPrimary opcode)

/-- The bytes of an instruction in fetch order (R82, R86). -/
def encode : Instr → List Byte
  | .ldSpD16 v => [0x31#8, lowByte v, highByte v]
  | .ldHlDecA => [0x32#8]
  | .xorA => [0xAF#8]
  | .ldHlD16 v => [0x21#8, lowByte v, highByte v]
  | .prefixCb sub => [0xCB#8, sub]
  | .jpNzR8 d => [0x20#8, d]
  | .ldCD8 n => [0x0E#8, n]
  | .ldAD8 n => [0x3E#8, n]
  | .ldCIndA => [0xE2#8]
  | .incC => [0x0C#8]
  | .ldHlIndA => [0x77#8]
  | .ldhA8A n => [0xE0#8, n]
  | .ldDeD16 v => [0x11#8, lowByte v, highByte v]
  | .ldADe => [0x1A#8]
  | .callA16 v => [0xCD#8, lowByte v, highByte v]
  | .ldCA => [0x4F#8]
  | .ldBD8 n => [0x06#8, n]
  | .pushBc => [0xC5#8]
  | .bit7H => [0xCB#8, 0x7C#8]
  | .rlC => [0xCB#8, 0x11#8]

/-- Length in bytes, the Length column of R86 (R82, R85; CALL occupies three bytes, `90_conflicts.md` C11). -/
def Instr.byteLength : Instr → Nat
  | .ldHlDecA | .xorA | .ldCIndA | .incC | .ldHlIndA | .ldADe | .ldCA | .pushBc => 1
  | .prefixCb _ | .jpNzR8 _ | .ldCD8 _ | .ldAD8 _ | .ldhA8A _ | .ldBD8 _ | .bit7H | .rlC => 2
  | .ldSpD16 _ | .ldHlD16 _ | .ldDeD16 _ | .callA16 _ => 3

/-- The opcodes whose instruction is two bytes long (R85); used only to read the opcode table's numbers. -/
def twoByteOpcodes : List Byte := [0x0E#8, 0x3E#8, 0x06#8, 0xE0#8, 0x20#8, 0xCB#8]

/-- The three bytes that the table's number `w` of `nbits` bits stands for, in fetch order, zero beyond `nbits`.
A row's first byte is the number's low byte, except in a row of two fixed bytes, where the table puts the first byte in
the high-order position (R94: `match` 0xCB7C is the bytes CB 7C). A 16-bit number is taken as such a row when its high
byte is the prefix 0xCB and its low byte opens no two-byte instruction (log entry 9). -/
def tableBytes (nbits w : Nat) : List Byte :=
  let w := w % 2 ^ nbits
  let byteAt (k : Nat) : Byte := BitVec.ofNat 8 (w / 2 ^ (8 * k))
  if nbits = 16 ∧ byteAt 1 = 0xCB#8 ∧ byteAt 0 ∉ twoByteOpcodes then [byteAt 1, byteAt 0, 0x00#8]
  else [byteAt 0, byteAt 1, byteAt 2]

/-- The instruction the decoder reads from the table's number `w` of `nbits` bits. -/
def decodeTableWord (nbits w : Nat) : Option Instr :=
  match decode (tableBytes nbits w) with
  | .ok (i, _) => some i
  | .error _ => none

end Sys2Proof
end

