-- ==== Sys2Proof/Config.lean ====
section
/-! DEFINITION. The parameters of `00_scope.md` R6: the fixed ones as constants, the open ones as the type `Params`
that the flag and push operations take as an argument. The values this machine runs with are `Machine.params`
(`Machine/Params.lean`). `BOOT_IMAGE` is an argument of `Machine.create`, `STEP_BUDGET` one of `Machine.run`. -/

namespace Sys2Proof.Config

/-- `MEM_SIZE`, R6. -/
def memSize : Nat := 65536

/-- `BOOT_BASE`, R6. -/
def bootBase : Word := 0x0000#16

/-- `BOOT_LEN`, R6. -/
def bootLen : Nat := 256

/-- The page that LD (C),A and LDH (a8),A address: 0xFF00 (`41_load_store_memory.md` R111, R113). -/
def highPage : Word := 0xFF00#16

/-- The open parameters and the two switches the spec offers.
`flagN`, `flagH`, `flagC`: `FLAG_N_BIT`, `FLAG_H_BIT`, `FLAG_C_BIT` (R6, `10_state.md` R25).
`pushLowByteOnly`: `PUSH_LOW_BYTE_ONLY` (`44_stack.md` R140).
`callPushOffset`: `CALL_PUSH_OFFSET` (`93_implementation_defined.md` U15). -/
structure Params where
  flagN : Fin 8
  flagH : Fin 8
  flagC : Fin 8
  pushLowByteOnly : Bool
  callPushOffset : Word
  deriving DecidableEq, Repr

/-- R6: "any three distinct values in 1..7 are admissible" for the positions of N, H and C (Zero holds bit 0). -/
abbrev Params.Admissible (p : Params) : Prop :=
  p.flagN ≠ 0 ∧ p.flagH ≠ 0 ∧ p.flagC ≠ 0 ∧ p.flagN ≠ p.flagH ∧ p.flagN ≠ p.flagC ∧ p.flagH ≠ p.flagC

end Sys2Proof.Config
end

