-- ==== Sys2Proof/Machine/Params.lean ====
section
/-! DEFINITION. The parameter values this machine runs with. -/

namespace Sys2Proof.Machine

/-- The defaults of `00_scope.md` R6: N, H and C at bits 1, 2, 3 of F (`10_state.md` R25, log entry 3), a push of two
bytes (`44_stack.md` R140, log entry 4), and CALL pushing `pc0 + 1` (`43_control_transfer.md` R131, log entry 5). -/
def params : Config.Params where
  flagN := 1
  flagH := 2
  flagC := 3
  pushLowByteOnly := false
  callPushOffset := 1#16

end Sys2Proof.Machine
end

