-- ==== Sys2Proof/Machine/State.lean ====
section
/-! DEFINITION. The state of the block (`10_state.md`), as plain data, and its reset value. -/

namespace Sys2Proof.Machine

/-- The Memory Unit's content (`20_memory.md` R50): the bytes that are not 0x00, by address, strictly rising. An
address that is not listed holds 0x00, the value `create()` gives every byte (R51). The form is `Memory.wf`, the
operations are in `Machine/Ops.lean`. -/
abbrev Memory := List Host.Cell

/-- Which of the two dispatch tables had no entry (`60_exceptions.md` R161, R162). -/
inductive FaultKind where
  | primary
  | extended
  deriving DecidableEq, Repr

/-- The values of all ten registers at a fault (`60_exceptions.md` R162). -/
structure Snapshot where
  a : Byte
  f : Byte
  b : Byte
  c : Byte
  d : Byte
  e : Byte
  h : Byte
  l : Byte
  sp : Word
  pc : Word
  deriving DecidableEq, Repr

/-- What a fault records (`60_exceptions.md` R162). -/
structure FaultReport where
  kind : FaultKind
  /-- The byte with no table entry: the first byte, or the byte after 0xCB. -/
  opcode : Byte
  /-- `pc0`, the address of the instruction's first byte. -/
  pc : Word
  snapshot : Snapshot
  deriving DecidableEq, Repr

/-- The run state (`10_state.md` R33); the halted state holds the fault report. -/
inductive RunState where
  | running
  | haltedOnFault (report : FaultReport)
  deriving DecidableEq, Repr

/-- Everything the spec gives the block: the ten registers (`10_state.md` R21), the memory (R32) and the run state
with its fault report (R33). -/
structure State where
  a : Byte
  f : Byte
  b : Byte
  c : Byte
  d : Byte
  e : Byte
  h : Byte
  l : Byte
  sp : Word
  pc : Word
  mem : Memory
  run : RunState
  deriving DecidableEq, Repr

/-- Why a step can answer no next state. -/
inductive Fault where
  /-- Raised by `step` alone, when it is requested in `halted_on_fault`: the recorded report is yielded again and
  nothing changes (`60_exceptions.md` R171). The fault is first raised by the step that meets the unmatched byte,
  which answers the halted state (R168, log entry 7). Safe. -/
  | unimplementedOpcode (report : FaultReport)
  deriving DecidableEq, Repr

/-- What the model declines to do. -/
inductive Refusal where
  /-- Raised by an arm of `exec` for an instruction without a meaning; no arm is left in that state. Safe. -/
  | notModelled (mnemonic : String)
  /-- Raised by `create` alone, for a `BOOT_IMAGE` whose length is not 256 (`70_reset_and_hazards.md` R191, D17): no
  block is created. Safe. -/
  | bootImageLength (length : Nat)
  deriving DecidableEq, Repr

/-- The answer of an instruction, of a step and of a creation. -/
abbrev Result := Host.Outcome State Fault Refusal

/-- The state right after reset (`10_state.md` R38): every register, SP and PC zero, running, no fault report, memory
zero. `BOOT_IMAGE` is an open parameter; this is the block whose image is 256 zero bytes, and `create` makes the
block of any image (log entry 1). -/
def State.reset : State where
  a := 0x00#8
  f := 0x00#8
  b := 0x00#8
  c := 0x00#8
  d := 0x00#8
  e := 0x00#8
  h := 0x00#8
  l := 0x00#8
  sp := 0x0000#16
  pc := 0x0000#16
  mem := []
  run := .running

end Sys2Proof.Machine
end

