-- ==== Sys2Proof/Machine/Ops.lean ====
section
/-! DEFINITION. The named operations over memory and registers that the instructions share: the Memory Unit's three
(`20_memory.md` R52 to R55), the register and pair accesses (`10_state.md` R21, R22), the stack push (`44_stack.md`
R140), the advance of PC (R29), the fetch, and the entry of the one fault (`60_exceptions.md` R168). The block has no
return from a fault (R170). -/

namespace Sys2Proof.Machine

/-! ### The Memory Unit -/

/-- The canonical form: addresses strictly rising and below `MEM_SIZE`, no listed byte equal to 0x00. -/
abbrev Memory.wf (m : Memory) : Prop :=
  m.Pairwise (fun x y => x.1 < y.1) ∧ ∀ cell ∈ m, cell.1 < Config.memSize ∧ cell.2 ≠ 0x00#8

/-- The byte listed at a key, 0x00 where none is (R38, R51). -/
def Memory.lookup : Memory → Nat → Byte
  | [], _ => 0x00#8
  | (k, v) :: rest, n => if k = n then v else Memory.lookup rest n

/-- A cell put before the first cell with a higher key. -/
def Memory.insert (cell : Host.Cell) : Memory → Memory
  | [] => [cell]
  | x :: rest => if cell.1 < x.1 then cell :: x :: rest else x :: Memory.insert cell rest

/-- `MemRead(addr, 1)`: the byte at `addr`; nothing changes and nothing can fail (R52, R72). -/
def Memory.read (m : Memory) (addr : Word) : Byte := m.lookup addr.toNat

/-- `MemWrite(addr, 1, v)`: store `v` at `addr`; nothing can fail and every address is writable (R53, R63, R72). -/
def Memory.write (m : Memory) (addr : Word) (v : Byte) : Memory :=
  let others := m.filter fun cell => cell.1 != addr.toNat
  if v = 0x00#8 then others else Memory.insert (addr.toNat, v) others

/-- `MemRead(addr, 2)`, `read16`: the low byte at `addr`, then the high byte at `addr +16 1` (R54). -/
def Memory.read16 (m : Memory) (addr : Word) : Word := ofBytes (m.read addr) (m.read (addr + 1#16))

/-- `MemWrite(addr, 2, v)`, used only by the push: the low byte at `addr`, then the high byte at `addr +16 1` (R8,
R140). Under `PUSH_LOW_BYTE_ONLY` the second write is left out. -/
def Memory.write16 (p : Config.Params) (m : Memory) (addr : Word) (v : Word) : Memory :=
  let low := m.write addr (lowByte v)
  if p.pushLowByteOnly then low else low.write (addr + 1#16) (highByte v)

/-! ### Registers -/

/-- The eight 8-bit registers (`10_state.md` R21). -/
inductive Reg where
  | a | f | b | c | d | e | h | l
  deriving DecidableEq, Repr

/-- `x[r]` (R8). -/
def getReg (s : State) : Reg → Byte
  | .a => s.a
  | .f => s.f
  | .b => s.b
  | .c => s.c
  | .d => s.d
  | .e => s.e
  | .h => s.h
  | .l => s.l

/-- `x[r] <- v` (R8); no register is hardwired (R21). -/
def setReg (s : State) (r : Reg) (v : Byte) : State :=
  match r with
  | .a => { s with a := v }
  | .f => { s with f := v }
  | .b => { s with b := v }
  | .c => { s with c := v }
  | .d => { s with d := v }
  | .e => { s with e := v }
  | .h => { s with h := v }
  | .l => { s with l := v }

/-- The four register pairs (`10_state.md` R22). -/
inductive Pair where
  | bc | de | hl | af
  deriving DecidableEq, Repr

/-- The first-named register of a pair, its high byte (R22). -/
def Pair.hi : Pair → Reg
  | .bc => .b
  | .de => .d
  | .hl => .h
  | .af => .a

/-- The second-named register of a pair, its low byte (R22). -/
def Pair.lo : Pair → Reg
  | .bc => .c
  | .de => .e
  | .hl => .l
  | .af => .f

/-- `x[rr]`: `(x[Hi] << 8) | x[Lo]` (R8, R22). -/
def getPair (s : State) (p : Pair) : Word := ofBytes (getReg s p.lo) (getReg s p.hi)

/-- `x[rr] <- v`: `x[Hi] <- v[15:8]`, `x[Lo] <- v[7:0]` (R8, R22); a write of AF stores into F unmasked (R27). -/
def setPair (s : State) (p : Pair) (v : Word) : State :=
  setReg (setReg s p.hi (highByte v)) p.lo (lowByte v)

/-- `sp <- v` (R31). -/
def setSp (s : State) (v : Word) : State := { s with sp := v }

/-- `pc <- target` (R28). -/
def setPc (s : State) (v : Word) : State := { s with pc := v }

/-- `pc <- pc0 +16 n`, the last action of an instruction of `n` bytes (R29, R30). -/
def advance (n : Nat) (s : State) : State := setPc s (s.pc + BitVec.ofNat 16 n)

/-- A byte store by an instruction: one `write` (`20_memory.md` R55). -/
def storeByte (s : State) (addr : Word) (v : Byte) : State := { s with mem := s.mem.write addr v }

/-- Addressing mode (f), the stack: the new SP, where the push stores its low byte (`41_load_store_memory.md` R115,
`44_stack.md` R140). -/
def eaPush (s : State) : Word := s.sp - 2#16

/-- The stack push operation (`44_stack.md` R140): SP goes down by 2, the value is stored at the new SP. -/
def push16 (p : Config.Params) (v : Word) (s : State) : State :=
  { s with sp := eaPush s, mem := Memory.write16 p s.mem (eaPush s) v }

/-! ### Fetch -/

/-- The bytes from PC on, as many as the longest instruction has (`30_encoding.md` R80, R81), addresses modulo 65536
(`20_memory.md` R58). Reads change nothing (R52), so reading a byte the instruction does not use is not observable
(log entry 10). -/
def fetchBytes (s : State) : List Byte :=
  [s.mem.read s.pc, s.mem.read (s.pc + 1#16), s.mem.read (s.pc + 2#16)]

/-- The given bytes stored from `addr` on, in ascending address order modulo 65536. -/
def storeBytes (m : Memory) (addr : Word) : List Byte → Memory
  | [] => m
  | v :: rest => storeBytes (m.write addr v) (addr + 1#16) rest

/-! ### The fault -/

/-- The ten registers as the fault report holds them (`60_exceptions.md` R162). -/
def snapshot (s : State) : Snapshot where
  a := s.a
  f := s.f
  b := s.b
  c := s.c
  d := s.d
  e := s.e
  h := s.h
  l := s.l
  sp := s.sp
  pc := s.pc

/-- The fault report of `60_exceptions.md` R162, for the state before the faulting step. -/
def faultReport (kind : FaultKind) (opcode : Byte) (s : State) : FaultReport where
  kind := kind
  opcode := opcode
  pc := s.pc
  snapshot := snapshot s

/-- Taking the fault `UnimplementedOpcode` (`60_exceptions.md` R168): no register and no memory byte changes, PC keeps
`pc0`, the run state becomes `halted_on_fault` with the report. There is no vector and no handler. -/
def raiseUnimplementedOpcode (kind : FaultKind) (opcode : Byte) (s : State) : Result :=
  .next { s with run := .haltedOnFault (faultReport kind opcode s) }

/-- The fault of a first byte outside the primary table (`30_encoding.md` R81, R88). -/
def raisePrimary (s : State) : Result := raiseUnimplementedOpcode .primary (s.mem.read s.pc) s

end Sys2Proof.Machine
end

