-- ==== Sys2Proof/Machine/Operands.lean ====
section
/-! DEFINITION. The addressing modes of the whole set (`41_load_store_memory.md` R115) and the operands read from
memory (`30_encoding.md` R83). Mode (f), the stack, is `eaPush` in `Machine/Ops.lean`. -/

namespace Sys2Proof.Machine

/-- Modes (a) and (b): through HL; the decrement of (b) comes after the store (R110, R112, R115). -/
def eaHl (s : State) : Word := getPair s .hl

/-- Mode (c): through DE (R114, R115). -/
def eaDe (s : State) : Word := getPair s .de

/-- `0xFF00 + zext_16(n)`, which never leaves page 0xFF00 (`20_memory.md` R58). -/
def highPageAddr (n : Byte) : Word := Config.highPage + n.zeroExtend 16

/-- Mode (d): high page plus register C (R111, R115). -/
def eaHighC (s : State) : Word := highPageAddr (getReg s .c)

/-- Mode (e): high page plus the immediate byte (R113, R115). -/
def eaHighImm (a8 : Byte) : Word := highPageAddr a8

/-- The word at PC + 1, low byte first: d16 and a16 (`30_encoding.md` R83). -/
def immediate16 (s : State) : Word := s.mem.read16 (s.pc + 1#16)

/-- `sext_16(r8)` (`00_scope.md` R8, `30_encoding.md` R83). -/
def displacement (r8 : Byte) : Word := r8.signExtend 16

end Sys2Proof.Machine
end

