-- ==== Sys2Proof/Machine/Alu.lean ====
section
/-! DEFINITION. Arithmetic and logic on registers (`42_alu.md`). Neither writes F. -/

namespace Sys2Proof.Machine

/-- XOR A, R120. -/
def execXorA (s : State) : Result := .next (advance 1 (setReg s .a (getReg s .a ^^^ getReg s .a)))

/-- INC C, R121: modulo 256, no carry into B. -/
def execIncC (s : State) : Result := .next (advance 1 (setReg s .c (getReg s .c + 1#8)))

end Sys2Proof.Machine
end

