-- ==== Sys2Proof/Machine/Flags.lean ====
section
/-! DEFINITION. The four flags of F and the two computations that write F (`10_state.md` R24 to R26). The positions of
N, H and C are parameters, so every operation takes the parameters as an argument. -/

namespace Sys2Proof.Machine

/-- Zero, Subtract, Half-Carry, Carry (`10_state.md` R24). -/
inductive FlagName where
  | z | n | h | c
  deriving DecidableEq, Repr

/-- The bit of F that holds a flag: Zero is bit 0, the others are parameters (`10_state.md` R25). -/
def flagBit (p : Config.Params) : FlagName → Nat
  | .z => 0
  | .n => p.flagN.val
  | .h => p.flagH.val
  | .c => p.flagC.val

/-- The mask of a flag in F (R25). -/
def flagMask (p : Config.Params) (fl : FlagName) : Byte := 1#8 <<< flagBit p fl

/-- The bits of F that hold no flag (R25): 7:4 under the defaults. -/
def unusedMask (p : Config.Params) : Byte :=
  ~~~(flagMask p .z ||| flagMask p .n ||| flagMask p .h ||| flagMask p .c)

/-- One flag of an F value (`00_scope.md` R8). -/
def readFlag (p : Config.Params) (f : Byte) (fl : FlagName) : Bool := f.getLsbD (flagBit p fl)

/-- `flag <- v` on an F value: that bit is written, the other bits stay (`00_scope.md` R8). -/
def writeFlag (p : Config.Params) (f : Byte) (fl : FlagName) (v : Bool) : Byte :=
  if v then f ||| flagMask p fl else f &&& ~~~(flagMask p fl)

/-- A flag of the state under this machine's parameters. -/
def getFlag (s : State) (fl : FlagName) : Bool := readFlag params s.f fl

/-- The F that BIT 7,H writes: the literal 0x01 if bit 7 of H is clear, 0x00 if it is set (`45_extended_cb.md` R151). -/
def bit7Flags (h : Byte) : Byte := if h.getLsbD 7 then 0x00#8 else 0x01#8

/-- The new C of RL C: `((old_c << 1) | old_cy) mod 256` (`45_extended_cb.md` R152). -/
def rotateLeft (oldC : Byte) (carry : Bool) : Byte := (oldC <<< 1) ||| (BitVec.ofBool carry).zeroExtend 8

/-- The F that RL C writes: cleared, then Carry is the old bit 7 of C and Zero whether the new C is 0 (R152). -/
def rotateFlags (p : Config.Params) (oldC newC : Byte) : Byte :=
  writeFlag p (writeFlag p 0x00#8 .c (oldC.getLsbD 7)) .z (decide (newC = 0x00#8))

end Sys2Proof.Machine
end

