-- ==== Sys2Proof/Machine/Control.lean ====
section
/-! DEFINITION. Control transfer (`43_control_transfer.md`): the only instructions that give PC a value other than `pc0`
plus their length. -/

namespace Sys2Proof.Machine

/-- JP NZ,r8, R130: taken exactly when the Zero flag is 0; relative to the next instruction. -/
def execJpNzR8 (r8 : Byte) (s : State) : Result :=
  if getFlag s .z then .next (advance 2 s)
  else .next (setPc s (s.pc + 2#16 + displacement r8))

/-- CALL a16 under the parameters `p`, R131: push `pc0 + 1` (`CALL_PUSH_OFFSET`), then read the target from `pc0 + 1`. -/
def callWith (p : Config.Params) (s : State) : State :=
  let pushed := push16 p (s.pc + p.callPushOffset) s
  setPc pushed (immediate16 pushed)

/-- CALL a16, R131. The target is read from memory after the push, which may have overwritten it (`20_memory.md` R60,
`70_reset_and_hazards.md` R201); the operand the decoder read before the push is therefore not used (log entry 6). -/
def execCallA16 (_a16 : Word) (s : State) : Result := .next (callWith params s)

end Sys2Proof.Machine
end

