-- ==== Sys2Proof/Machine/Extended.lean ====
section
/-! DEFINITION. The 0xCB prefix and the two extended instructions (`45_extended_cb.md`), the only ones that write F. -/

namespace Sys2Proof.Machine

/-- The sub-operation BIT 7,H, R151: all of F is overwritten. -/
def bit7HOp (s : State) : State := setReg s .f (bit7Flags (getReg s .h))

/-- The sub-operation RL C under the parameters `p`, R152: C is rotated through Carry, all of F is written. -/
def rlCOp (p : Config.Params) (s : State) : State :=
  let oldC := getReg s .c
  let newC := rotateLeft oldC (readFlag p (getReg s .f) .c)
  setReg (setReg s .c newC) .f (rotateFlags p oldC newC)

/-- BIT 7,H, R151, with the prefix's advance of PC by 2 (R150). -/
def execBit7H (s : State) : Result := .next (advance 2 (bit7HOp s))

/-- RL C, R152, with the prefix's advance of PC by 2 (R150). -/
def execRlC (s : State) : Result := .next (advance 2 (rlCOp params s))

/-- PREFIX CB, R150: the extended decode. PC is advanced by 2 once, after the sub-operation, and not at all when the
extended opcode is unmatched. -/
def execPrefixCb (sub : Byte) (s : State) : Result :=
  if sub = 0x7C#8 then .next (advance 2 (bit7HOp s))
  else if sub = 0x11#8 then .next (advance 2 (rlCOp params s))
  else raiseUnimplementedOpcode .extended sub s

end Sys2Proof.Machine
end

