-- ==== Sys2Proof/Machine/LoadStore.lean ====
section
/-! DEFINITION. Loads and stores between A and memory (`41_load_store_memory.md`). Every data access is one byte; no one
of them writes F or raises a fault. -/

namespace Sys2Proof.Machine

/-- LD (HL-),A, R110: the store uses HL's value before the decrement. -/
def execLdHlDecA (s : State) : Result :=
  let addr := eaHl s
  .next (advance 1 (setPair (storeByte s addr (getReg s .a)) .hl (addr - 1#16)))

/-- LD (C),A, R111. -/
def execLdCIndA (s : State) : Result := .next (advance 1 (storeByte s (eaHighC s) (getReg s .a)))

/-- LD (HL),A, R112. -/
def execLdHlIndA (s : State) : Result := .next (advance 1 (storeByte s (eaHl s) (getReg s .a)))

/-- LDH (a8),A, R113: the operand byte is read before the store. -/
def execLdhA8A (a8 : Byte) (s : State) : Result := .next (advance 2 (storeByte s (eaHighImm a8) (getReg s .a)))

/-- LD A,(DE), R114. -/
def execLdADe (s : State) : Result := .next (advance 1 (setReg s .a (s.mem.read (eaDe s))))

end Sys2Proof.Machine
end

