-- ==== Sys2Proof/Machine/Loads.lean ====
section
/-! DEFINITION. Loads of immediates and of registers into registers (`40_load_immediate_and_register.md`). No one of
them writes F, touches data memory or raises a fault. The operand is the one the decoder read from `pc0 + 1` on; no
write precedes the handler's own read of it, so it is the same value (log entry 11). -/

namespace Sys2Proof.Machine

/-- LD SP,d16, R100. -/
def execLdSpD16 (d16 : Word) (s : State) : Result := .next (advance 3 (setSp s d16))

/-- LD HL,d16, R101. -/
def execLdHlD16 (d16 : Word) (s : State) : Result := .next (advance 3 (setPair s .hl d16))

/-- LD C,d8, R102. -/
def execLdCD8 (d8 : Byte) (s : State) : Result := .next (advance 2 (setReg s .c d8))

/-- LD A,d8, R103. -/
def execLdAD8 (d8 : Byte) (s : State) : Result := .next (advance 2 (setReg s .a d8))

/-- LD DE,d16, R104. -/
def execLdDeD16 (d16 : Word) (s : State) : Result := .next (advance 3 (setPair s .de d16))

/-- LD C,A, R105. -/
def execLdCA (s : State) : Result := .next (advance 1 (setReg s .c (getReg s .a)))

/-- LD B,d8, R106. -/
def execLdBD8 (d8 : Byte) (s : State) : Result := .next (advance 2 (setReg s .b d8))

end Sys2Proof.Machine
end

