-- ==== Sys2Proof/Machine/Stack.lean ====
section
/-! DEFINITION. PUSH BC (`44_stack.md` R141). The set has no pop and no return (R142). -/

namespace Sys2Proof.Machine

/-- PUSH BC, R141: C goes to the new SP, B to the new SP + 1. -/
def execPushBc (s : State) : Result := .next (advance 1 (push16 params (getPair s .bc) s))

end Sys2Proof.Machine
end

