-- ==== Sys2Proof/Machine/Dispatch.lean ====
section
/-! DEFINITION. The meaning of each instruction, one arm per constructor (`30_encoding.md` R86). `exec` does not look at
the run state: `step` calls it only while the block is running (`70_reset_and_hazards.md` R195). -/

namespace Sys2Proof.Machine

/-- The instruction's effect on the state. -/
def exec (i : Instr) (s : State) : Host.Outcome State Fault Refusal :=
  match i with
  | .ldSpD16 d16 => Sys2Proof.Machine.execLdSpD16 d16 s
  | .ldHlDecA => Sys2Proof.Machine.execLdHlDecA s
  | .xorA => Sys2Proof.Machine.execXorA s
  | .ldHlD16 d16 => Sys2Proof.Machine.execLdHlD16 d16 s
  | .prefixCb sub => Sys2Proof.Machine.execPrefixCb sub s
  | .jpNzR8 r8 => Sys2Proof.Machine.execJpNzR8 r8 s
  | .ldCD8 d8 => Sys2Proof.Machine.execLdCD8 d8 s
  | .ldAD8 d8 => Sys2Proof.Machine.execLdAD8 d8 s
  | .ldCIndA => Sys2Proof.Machine.execLdCIndA s
  | .incC => Sys2Proof.Machine.execIncC s
  | .ldHlIndA => Sys2Proof.Machine.execLdHlIndA s
  | .ldhA8A a8 => Sys2Proof.Machine.execLdhA8A a8 s
  | .ldDeD16 d16 => Sys2Proof.Machine.execLdDeD16 d16 s
  | .ldADe => Sys2Proof.Machine.execLdADe s
  | .callA16 a16 => Sys2Proof.Machine.execCallA16 a16 s
  | .ldCA => Sys2Proof.Machine.execLdCA s
  | .ldBD8 d8 => Sys2Proof.Machine.execLdBD8 d8 s
  | .pushBc => Sys2Proof.Machine.execPushBc s
  | .bit7H => Sys2Proof.Machine.execBit7H s
  | .rlC => Sys2Proof.Machine.execRlC s

end Sys2Proof.Machine
end

