-- ==== Sys2Proof/Machine/Step.lean ====
section
/-! DEFINITION. The one step of the block (`30_encoding.md` R81, `70_reset_and_hazards.md` R195). -/

namespace Sys2Proof.Machine

/-- While running: fetch, decode, execute one instruction, or take the fault of an unmatched first byte (R81, R88). In
`halted_on_fault`: fetch nothing, change nothing, yield the recorded report (`60_exceptions.md` R171). -/
def step (s : State) : Host.Outcome State Fault Refusal :=
  match s.run with
  | .haltedOnFault report => .fault (.unimplementedOpcode report)
  | .running =>
    match decode (fetchBytes s) with
    | .ok (i, _) => exec i s
    | .error _ => raisePrimary s

/-- The state with the table's number `w` of `nbits` bits stored where `step` fetches, from PC on, and the block
running, so that the next step runs it. It stands for a program loaded from outside the machine (log entry 2). -/
def State.withFetchWord (s : State) (nbits w : Nat) : State :=
  { s with mem := storeBytes s.mem s.pc (tableBytes nbits w), run := .running }

end Sys2Proof.Machine
end

