-- ==== Sys2Proof/Machine/Create.lean ====
section
/-! DEFINITION. Creation, the block's only reset (`70_reset_and_hazards.md` R190, R191, R193). -/

namespace Sys2Proof.Machine

/-- The block created with a `BOOT_IMAGE` (R190): memory zeroed, the image copied to 0x0000..0x00FF, every register
zero, running. An image whose length is not 256 is refused (R191, D17). -/
def create (image : List Byte) : Result :=
  if image.length = Config.bootLen then
    .next { State.reset with mem := storeBytes State.reset.mem Config.bootBase image }
  else .refused (.bootImageLength image.length)

end Sys2Proof.Machine
end

