-- ==== Sys2Proof/Machine/Run.lean ====
section
/-! DEFINITION. The run contract (`70_reset_and_hazards.md` R196). -/

namespace Sys2Proof.Machine

/-- How a run ends (R196, R197). -/
inductive RunResult where
  /-- `N` instructions executed, the block still running. -/
  | completed (s : State)
  /-- The run stopped in `halted_on_fault`: the halted state and its report. -/
  | faulted (s : State) (report : FaultReport)
  /-- A step was refused: no step of this model is. -/
  | refused (r : Refusal)
  deriving DecidableEq, Repr

/-- `run(N)`: `step` up to `N` times, stopping at the first fault (R196). A block that is halted already yields its
report, whatever `N` is (R171, log entry 14). -/
def run (n : Nat) (s : State) : RunResult :=
  match s.run with
  | .haltedOnFault report => .faulted s report
  | .running =>
    match n with
    | 0 => .completed s
    | n + 1 =>
      match step s with
      | .next t => run n t
      | .fault (.unimplementedOpcode report) => .faulted s report
      | .refused r => .refused r

end Sys2Proof.Machine
end

