-- ==== Sys2Proof/Machine/Trace.lean ====
section
/-! DEFINITION. The Memory Unit calls a step makes, in order (the "Access sequence" of every instruction's rule,
`20_memory.md` R59, R67), and the optional trace record of a completed step (`60_exceptions.md` R178). Both are functions
of the state before the step; neither is state (`10_state.md` R36, log entry 13). -/

namespace Sys2Proof.Machine

/-- One call of the Memory Unit; `read16` is two reads (`20_memory.md` R54, R55). -/
inductive Access where
  | read (addr : Word)
  | write (addr : Word) (v : Byte)
  deriving DecidableEq, Repr

/-- The read of a one-byte operand, or of the extended opcode (`20_memory.md` R59). -/
def operandAccess (s : State) : List Access := [.read (s.pc + 1#16)]

/-- The `read16` of a two-byte operand: low byte, then high byte (`20_memory.md` R54, R59). -/
def operand16Accesses (s : State) : List Access := [.read (s.pc + 1#16), .read (s.pc + 2#16)]

/-- The writes of the push of `v`: low byte first (`44_stack.md` R140). -/
def pushAccesses (p : Config.Params) (v : Word) (s : State) : List Access :=
  .write (eaPush s) (lowByte v) ::
    if p.pushLowByteOnly then [] else [.write (eaPush s + 1#16) (highByte v)]

/-- What an instruction's handler calls after the opcode fetch (`20_memory.md` R59 and the rules of files 40 to 45). JP
NZ,r8 reads its displacement in both outcomes (R130); CALL pushes before it reads its target (R131). -/
def handlerAccesses (i : Instr) (s : State) : List Access :=
  match i with
  | .ldSpD16 _ | .ldHlD16 _ | .ldDeD16 _ => operand16Accesses s
  | .ldCD8 _ | .ldAD8 _ | .ldBD8 _ | .jpNzR8 _ | .prefixCb _ | .bit7H | .rlC => operandAccess s
  | .ldCA | .xorA | .incC => []
  | .ldHlDecA | .ldHlIndA => [.write (eaHl s) s.a]
  | .ldCIndA => [.write (eaHighC s) s.a]
  | .ldhA8A a8 => operandAccess s ++ [.write (eaHighImm a8) s.a]
  | .ldADe => [.read (eaDe s)]
  | .callA16 _ => pushAccesses params (s.pc + params.callPushOffset) s ++ operand16Accesses s
  | .pushBc => pushAccesses params (getPair s .bc) s

/-- The access sequence of a step (R59, R67): the opcode fetch, then the handler's calls; an unmatched first byte is
followed by no other access (`60_exceptions.md` R161), a halted block makes none (R171). -/
def accesses (s : State) : List Access :=
  match s.run with
  | .haltedOnFault _ => []
  | .running =>
    .read s.pc ::
      match decode (fetchBytes s) with
      | .ok (i, _) => handlerAccesses i s
      | .error _ => []

/-- The memory after a sequence of accesses: each write stores its byte, a read changes nothing (R52, R53). -/
def applyAccesses (m : Memory) : List Access → Memory
  | [] => m
  | .read _ :: rest => applyAccesses m rest
  | .write addr v :: rest => applyAccesses (m.write addr v) rest

/-- "one trace record per completed step holding `pc0` and the opcode byte (and the extended opcode for 0xCB)" (R178). -/
structure TraceRecord where
  pc : Word
  opcode : Byte
  extended : Option Byte
  deriving DecidableEq, Repr

/-- The trace record of the step from `s`: none where the step completes no instruction (R178). -/
def traceRecord (s : State) : Option TraceRecord :=
  match step s with
  | .next t =>
    match t.run with
    | .running =>
      some { pc := s.pc, opcode := s.mem.read s.pc,
             extended := if s.mem.read s.pc = 0xCB#8 then some (s.mem.read (s.pc + 1#16)) else none }
    | .haltedOnFault _ => none
  | .fault _ => none
  | .refused _ => none

end Sys2Proof.Machine
end

