-- ==== Sys2Proof/Safety.lean ====
section
/-! DEFINITION. What counts as a safe run and as a good state, and the words that claims about the block use. -/

namespace Sys2Proof.Machine

/-- The 18 entries of the primary table, sorted as `30_encoding.md` R86 sorts them "for a decoder". -/
def primaryOpcodes : List Byte :=
  [0x06#8, 0x0C#8, 0x0E#8, 0x11#8, 0x1A#8, 0x20#8, 0x21#8, 0x31#8, 0x32#8, 0x3E#8, 0x4F#8, 0x77#8, 0xAF#8, 0xC5#8,
   0xCB#8, 0xCD#8, 0xE0#8, 0xE2#8]

/-- The byte at PC, the opcode of the next instruction (`30_encoding.md` R81). -/
def opcodeAt (s : State) : Byte := s.mem.read s.pc

/-- The byte at PC + 1: the extended opcode when the byte at PC is 0xCB (`30_encoding.md` R87). -/
def subOpcodeAt (s : State) : Byte := s.mem.read (s.pc + 1#16)

/-- The first cause of the fault: the byte at PC is outside the primary table (`60_exceptions.md` R161). -/
abbrev UnmatchedPrimary (s : State) : Prop := opcodeAt s ∉ primaryOpcodes

/-- The second cause: the byte at PC is the prefix and the byte after it is outside the extended table (R161). -/
abbrev UnmatchedExtended (s : State) : Prop := opcodeAt s = 0xCB#8 ∧ subOpcodeAt s ∉ extendedOpcodes

/-- The bytes of `i` stand at PC and after it, addresses modulo 65536 (`30_encoding.md` R80). -/
def HoldsAtPc (i : Instr) (s : State) : Prop :=
  ∀ k, (hk : k < (encode i).length) → s.mem.read (s.pc + BitVec.ofNat 16 k) = (encode i)[k]

/-- Registers outside a list keep their values. -/
def RegsKept (except : List Reg) (s t : State) : Prop := ∀ r, r ∉ except → getReg t r = getReg s r

/-- Every byte of memory outside a list of addresses reads as before. -/
def BytesKept (except : List Word) (s t : State) : Prop := ∀ a, a ∉ except → t.mem.read a = s.mem.read a

/-- `a +16 n` as `00_scope.md` R8 defines it: `(a + n) mod 65536` on unbounded integers. -/
def add16 (a : Word) (n : Nat) : Word := BitVec.ofNat 16 ((a.toNat + n) % 65536)

/-- `a -16 n` as `00_scope.md` R8 defines it: `(a - n) mod 65536` on unbounded integers. -/
def sub16 (a : Word) (n : Nat) : Word := BitVec.ofInt 16 (((a.toNat : Int) - n) % 65536)

/-- The "writes" column of `10_state.md` R23, the 8-bit registers (SP and PC apart). -/
def writesOf : Instr → List Reg
  | .ldSpD16 _ => []
  | .ldHlDecA => [.h, .l]
  | .xorA => [.a]
  | .ldHlD16 _ => [.h, .l]
  | .prefixCb sub => if sub = 0x7C#8 then [.f] else if sub = 0x11#8 then [.c, .f] else []
  | .jpNzR8 _ => []
  | .ldCD8 _ => [.c]
  | .ldAD8 _ => [.a]
  | .ldCIndA => []
  | .incC => [.c]
  | .ldHlIndA => []
  | .ldhA8A _ => []
  | .ldDeD16 _ => [.d, .e]
  | .ldADe => [.a]
  | .callA16 _ => []
  | .ldCA => [.c]
  | .ldBD8 _ => [.b]
  | .pushBc => []
  | .bit7H => [.f]
  | .rlC => [.c, .f]

/-- Two states agree on everything the "reads" column of `10_state.md` R23 lists for an instruction: its registers, and
of F only the flag the column names. -/
def AgreeOnReads (s s' : State) : Instr → Prop
  | .ldHlDecA | .ldHlIndA => s.a = s'.a ∧ s.h = s'.h ∧ s.l = s'.l
  | .xorA | .ldhA8A _ | .ldCA => s.a = s'.a
  | .ldCIndA => s.a = s'.a ∧ s.c = s'.c
  | .incC => s.c = s'.c
  | .ldADe => s.d = s'.d ∧ s.e = s'.e
  | .jpNzR8 _ => getFlag s .z = getFlag s' .z
  | .callA16 _ => s.sp = s'.sp
  | .pushBc => s.b = s'.b ∧ s.c = s'.c ∧ s.sp = s'.sp
  | .prefixCb sub => if sub = 0x7C#8 then s.h = s'.h else s.c = s'.c ∧ getFlag s .c = getFlag s' .c
  | .bit7H => s.h = s'.h
  | .rlC => s.c = s'.c ∧ getFlag s .c = getFlag s' .c
  | .ldSpD16 _ | .ldHlD16 _ | .ldCD8 _ | .ldAD8 _ | .ldDeD16 _ | .ldBD8 _ => True

/-- The addresses an instruction stores to, computed as its meaning computes them (`20_memory.md` R59). -/
def storesOf (i : Instr) (s : State) : List Word :=
  match i with
  | .ldHlDecA | .ldHlIndA => [eaHl s]
  | .ldCIndA => [eaHighC s]
  | .ldhA8A a8 => [eaHighImm a8]
  | .callA16 _ | .pushBc => [eaPush s, eaPush s + 1#16]
  | .ldSpD16 _ | .xorA | .ldHlD16 _ | .prefixCb _ | .jpNzR8 _ | .ldCD8 _ | .ldAD8 _ | .incC | .ldDeD16 _ | .ldADe
  | .ldCA | .ldBD8 _ | .bit7H | .rlC => []

/-- The unused bits of F are zero (`10_state.md` R24). -/
abbrev UnusedFlagsZero (s : State) : Prop := s.f &&& unusedMask params = 0x00#8

/-- A recorded fault report describes the halted block: PC and every register still hold what the report says, and the
memory still holds the byte that has no entry (`60_exceptions.md` R161, R162, R168). -/
def ReportDescribes (s : State) : Prop :=
  ∀ report, s.run = .haltedOnFault report →
    report.pc = s.pc ∧ report.snapshot = snapshot s ∧
      match report.kind with
      | .primary => report.opcode = opcodeAt s ∧ UnmatchedPrimary s
      | .extended => report.opcode = subOpcodeAt s ∧ UnmatchedExtended s

/-- A good state: the memory in its canonical form, the unused flag bits zero, the fault report true. -/
structure State.Inv (s : State) : Prop where
  memory : s.mem.wf
  flags : UnusedFlagsZero s
  report : ReportDescribes s

/-- `n` steps, each with a next state, lead from `s` to `t` (`70_reset_and_hazards.md` R195). -/
def StepsTo : Nat → State → State → Prop
  | 0, s, t => t = s
  | n + 1, s, t => ∃ u, step s = .next u ∧ StepsTo n u t

/-- A safe run: `n` steps complete `n` instructions and the block is still running (`70_reset_and_hazards.md` R197). -/
def SafeFor (n : Nat) (s : State) : Prop := ∃ t, run n s = .completed t

end Sys2Proof.Machine
end

