-- ==== Sys2Proof/Certificates/Slice0/Obligations.lean ====
section
/-! DEFINITION. The statements about the block, from the numbered rules of spec/. `add16` and `sub16` are the `+16` and
`-16` of `00_scope.md` R8; `opcodeAt` and `subOpcodeAt` read the bytes at PC and PC + 1; `accesses` lists the Memory Unit
calls of a step, in order. D<n> is a decision of `92_eei_decisions.md`, the spec's own choice where its source is silent;
a statement that rests on one names it. -/

open Sys2Proof Sys2Proof.Machine

/-! ### Encoding -/

/-- `30_encoding.md` R82, R86: decoding the bytes of a well-formed instruction, whatever follows them, gives it back. -/
def Obligations.DecodeOfEncodeIsTheInstruction : Prop :=
  ∀ (i : Instr) (rest : List Byte), i.WellFormed → decode (encode i ++ rest) = .ok (i, rest)

/-- `30_encoding.md` R82, R86: bytes that decode are the bytes of a well-formed instruction and what follows them. -/
def Obligations.DecodedBytesAreTheEncoding : Prop :=
  ∀ (bytes : List Byte) (i : Instr) (rest : List Byte),
    decode bytes = .ok (i, rest) → i.WellFormed ∧ encode i ++ rest = bytes

/-- `30_encoding.md` R88: exactly the bytes outside the primary table, 238 of them, 0x00 and 0xFF among them, decode to
nothing as a first byte, and fetching one raises the fault. The report's content is D8 (R162, log entry 12). -/
def Obligations.UnmatchedPrimaryOpcodesFault : Prop :=
  (∀ (b : Byte) (rest : List Byte), decode (b :: rest) = .error (.unmatchedPrimary b) ↔ b ∉ primaryOpcodes) ∧
  ((List.range 256).filter fun n => BitVec.ofNat 8 n ∉ primaryOpcodes).length = 238 ∧
  0x00#8 ∉ primaryOpcodes ∧ 0xFF#8 ∉ primaryOpcodes ∧
  ∀ s : State, s.run = .running → opcodeAt s ∉ primaryOpcodes →
    step s = .next { s with run := .haltedOnFault (faultReport .primary (opcodeAt s) s) }

/-- `30_encoding.md` R89: each of the 254 bytes other than 0x7C and 0x11 raises the fault when it follows 0xCB. The
report's content is D8 (R162, log entry 12). -/
def Obligations.UnmatchedExtendedOpcodesFault : Prop :=
  ((List.range 256).filter fun n => BitVec.ofNat 8 n ≠ 0x7C#8 ∧ BitVec.ofNat 8 n ≠ 0x11#8).length = 254 ∧
  ∀ s : State, s.run = .running → opcodeAt s = 0xCB#8 → subOpcodeAt s ≠ 0x7C#8 → subOpcodeAt s ≠ 0x11#8 →
    step s = .next { s with run := .haltedOnFault (faultReport .extended (subOpcodeAt s) s) }

/-- `30_encoding.md` R82, R86: bytes written out from the table, at least one string for every format, decode to what they
stand for. -/
def Obligations.TableBytesDecodeToTheirInstructions : Prop :=
  decode [0x31#8, 0x00#8, 0x01#8] = .ok (.ldSpD16 0x0100#16, []) ∧
  decode [0x32#8, 0xFF#8] = .ok (.ldHlDecA, [0xFF#8]) ∧
  decode [0xAF#8] = .ok (.xorA, []) ∧
  decode [0x20#8, 0xFA#8] = .ok (.jpNzR8 0xFA#8, []) ∧
  decode [0xE0#8, 0x47#8] = .ok (.ldhA8A 0x47#8, []) ∧
  decode [0x0E#8, 0x11#8] = .ok (.ldCD8 0x11#8, []) ∧
  decode [0xCD#8, 0x95#8, 0x00#8] = .ok (.callA16 0x0095#16, []) ∧
  decode [0xC5#8] = .ok (.pushBc, []) ∧
  decode [0xCB#8, 0x7C#8] = .ok (.bit7H, []) ∧
  decode [0xCB#8, 0x11#8] = .ok (.rlC, []) ∧
  decode [0x11#8, 0x04#8, 0x01#8] = .ok (.ldDeD16 0x0104#16, [])

/-- `30_encoding.md` R85: the length is told by the opcode byte alone; an unmatched byte has none, the step faults and
PC is not advanced. -/
def Obligations.LengthIsToldByTheOpcodeByte : Prop :=
  (∀ (b : Byte) (bytes : List Byte) (i : Instr) (rest : List Byte), decode (b :: bytes) = .ok (i, rest) →
    bytes.length + 1 = rest.length + i.byteLength ∧
    (b ∈ [0x32#8, 0xAF#8, 0xE2#8, 0x0C#8, 0x77#8, 0x1A#8, 0x4F#8, 0xC5#8] ∧ i.byteLength = 1 ∨
     b ∈ [0x0E#8, 0x3E#8, 0x06#8, 0xE0#8, 0x20#8, 0xCB#8] ∧ i.byteLength = 2 ∨
     b ∈ [0x31#8, 0x21#8, 0x11#8, 0xCD#8] ∧ i.byteLength = 3)) ∧
  ∀ s : State, s.run = .running → UnmatchedPrimary s →
    ∃ t, step s = .next t ∧ t.run ≠ .running ∧ t.pc = s.pc

/-! ### Memory Unit and registers -/

/-- `20_memory.md` R73, clauses (a) to (e); (b) at 0xFFFF rests on D3, (e) on D4 (log entries 12, 4). -/
def Obligations.MemoryAndRegisterLaws : Prop :=
  (∀ (m : Memory) (a : Word) (v : Byte), (m.write a v).read a = v) ∧
  (∀ (m : Memory) (a : Word),
    (m.read16 a).toNat = ((m.read a).toNat ||| ((m.read (add16 a 1)).toNat <<< 8))) ∧
  (∀ (s : State) (rr : Pair) (v : Word), getPair (setPair s rr v) rr = v) ∧
  (∀ (m : Memory) (a b : Word) (v : Byte), b ≠ a → (m.write a v).read b = m.read b) ∧
  ∀ (s : State) (v : Word), (push16 params v s).mem.read16 (push16 params v s).sp = v

/-- `10_state.md` R22: a pair is a view of two registers, the first-named one high, in both directions. -/
def Obligations.PairsAreViewsOfTwoRegisters : Prop :=
  (∀ s : State,
    (getPair s .bc).toNat = 256 * s.b.toNat + s.c.toNat ∧ (getPair s .de).toNat = 256 * s.d.toNat + s.e.toNat ∧
    (getPair s .hl).toNat = 256 * s.h.toNat + s.l.toNat ∧ (getPair s .af).toNat = 256 * s.a.toNat + s.f.toNat) ∧
  (∀ (s : State) (v : Word),
    setPair s .bc v = { s with b := BitVec.ofNat 8 (v.toNat / 256), c := BitVec.ofNat 8 (v.toNat % 256) } ∧
    setPair s .de v = { s with d := BitVec.ofNat 8 (v.toNat / 256), e := BitVec.ofNat 8 (v.toNat % 256) } ∧
    setPair s .hl v = { s with h := BitVec.ofNat 8 (v.toNat / 256), l := BitVec.ofNat 8 (v.toNat % 256) } ∧
    setPair s .af v = { s with a := BitVec.ofNat 8 (v.toNat / 256), f := BitVec.ofNat 8 (v.toNat % 256) }) ∧
  ∀ (s : State) (rr : Pair) (v : Word), getPair (setPair s rr v) rr = v

/-- The canonical form of the model's memory list: memories that read the same everywhere are equal data. -/
def Obligations.MemoriesThatReadTheSameAreEqual : Prop :=
  ∀ m m' : Memory, m.wf → m'.wf → (∀ a : Word, m.read a = m'.read a) → m = m'

/-- `20_memory.md` R56: a 16-bit read sees the bytes two byte writes left, low byte at the lower address, also across
0xFFFF (D3); and reading one byte of a pushed word sees its low or its high byte (D4, log entry 4). -/
def Obligations.WordsAreLittleEndian : Prop :=
  (∀ (m : Memory) (a : Word) (v0 v1 : Byte),
    (((m.write a v0).write (add16 a 1) v1).read16 a).toNat = v0.toNat + 256 * v1.toNat) ∧
  ∀ (s : State) (v : Word),
    ((push16 params v s).mem.read (sub16 s.sp 2)).toNat = v.toNat % 256 ∧
    ((push16 params v s).mem.read (sub16 s.sp 1)).toNat = v.toNat / 256

/-! ### Creation -/

/-- `70_reset_and_hazards.md` R190: what creation leaves, for every image of 256 bytes; that the registers are zero is
D1 (log entry 12). -/
def Obligations.CreationCopiesTheBootImage : Prop :=
  ∀ image : List Byte, image.length = 256 →
    ∃ t, create image = .next t ∧
      (∀ r, getReg t r = 0x00#8) ∧ t.sp = 0x0000#16 ∧ t.pc = 0x0000#16 ∧ t.run = .running ∧
      ∀ a : Word, t.mem.read a = image.getD a.toNat 0x00#8

/-- `70_reset_and_hazards.md` R191, D17: an image of another length is refused. -/
def Obligations.OtherImageLengthsAreRefused : Prop :=
  ∀ image : List Byte, image.length ≠ 256 → create image = .refused (.bootImageLength image.length)

/-- The model's choice (log entry 1): the reset state is the block of the image of zeros; its registers, memory and run
state are those of `10_state.md` R38 for that image, and its first step faults at 0x0000 (vector V60.3), with the report of D8. -/
def Obligations.ResetIsTheBlockOfTheZeroImage : Prop :=
  create (List.replicate 256 0x00#8) = .next State.reset ∧
  (∀ r, getReg State.reset r = 0x00#8) ∧ State.reset.sp = 0x0000#16 ∧ State.reset.pc = 0x0000#16 ∧
  (∀ a : Word, State.reset.mem.read a = 0x00#8) ∧ State.reset.run = .running ∧
  step State.reset =
    .next { State.reset with run := .haltedOnFault (faultReport .primary 0x00#8 State.reset) }

/-! ### The step -/

/-- `30_encoding.md` R81: a running block's step is the meaning of the instruction that the bytes from PC on decode to,
with nothing around it; bytes that are an instruction's bytes run that instruction; and a first byte outside the primary
table raises the fault. -/
def Obligations.StepRunsTheDecodedInstruction : Prop :=
  (∀ (s : State) (i : Instr) (rest : List Byte), s.run = .running → decode (fetchBytes s) = .ok (i, rest) →
    step s = exec i s) ∧
  (∀ (s : State) (i : Instr), s.run = .running → i.WellFormed → HoldsAtPc i s → step s = exec i s) ∧
  ∀ s : State, s.run = .running → opcodeAt s ∉ primaryOpcodes →
    step s = raiseUnimplementedOpcode .primary (opcodeAt s) s

/-- `60_exceptions.md` R162, R168: taking the fault, for both causes, with every field of the report, whose content is
D8. -/
def Obligations.FaultEntryRecordsAndChangesNothingElse : Prop :=
  (∀ s : State, s.run = .running → UnmatchedPrimary s →
    ∃ (t : State) (report : FaultReport), step s = .next t ∧ t.run = .haltedOnFault report ∧ t = { s with run := t.run } ∧
      report.kind = .primary ∧ report.opcode = s.mem.read s.pc ∧ report.pc = s.pc ∧
      report.snapshot = { a := s.a, f := s.f, b := s.b, c := s.c, d := s.d, e := s.e, h := s.h, l := s.l, sp := s.sp, pc := s.pc }) ∧
  ∀ s : State, s.run = .running → UnmatchedExtended s →
    ∃ (t : State) (report : FaultReport), step s = .next t ∧ t.run = .haltedOnFault report ∧ t = { s with run := t.run } ∧
      report.kind = .extended ∧ report.opcode = s.mem.read (add16 s.pc 1) ∧ report.pc = s.pc ∧
      report.snapshot = { a := s.a, f := s.f, b := s.b, c := s.c, d := s.d, e := s.e, h := s.h, l := s.l, sp := s.sp, pc := s.pc }

/-- `60_exceptions.md` R161: a step of a running block always has a next state, and halts the block for the two causes
and for nothing else, after one read or two and no write; the matched encodings never halt it. The spec derives R161 from the rules
of the instructions. -/
def Obligations.StepFaultsExactlyOnUnmatchedBytes : Prop :=
  (∀ s : State, s.run = .running →
    ∃ t, step s = .next t ∧ (t.run = .running ↔ ¬ UnmatchedPrimary s ∧ ¬ UnmatchedExtended s)) ∧
  (∀ (i : Instr) (s : State), (∀ sub, i ≠ .prefixCb sub) → ∃ t, exec i s = .next t ∧ t.run = s.run) ∧
  (∀ (sub : Byte) (s : State), sub ∈ extendedOpcodes → ∃ t, exec (.prefixCb sub) s = .next t ∧ t.run = s.run) ∧
  (∀ s : State, s.run = .running → UnmatchedPrimary s → accesses s = [.read s.pc]) ∧
  ∀ s : State, s.run = .running → UnmatchedExtended s → accesses s = [.read s.pc, .read (add16 s.pc 1)]

/-- `60_exceptions.md` R171, D11, in this model's form (log entry 7): a step requested of a halted block has no next state and
yields the recorded report, however often it is asked; so does a run (log entry 14). -/
def Obligations.HaltedBlockYieldsItsReport : Prop :=
  ∀ (s : State) (report : FaultReport) (n : Nat), s.run = .haltedOnFault report →
    step s = .fault (.unimplementedOpcode report) ∧ run n s = .faulted s report

/-- The invariant of the model is kept by every step: canonical memory, unused bits of F zero (`10_state.md` R24), and a
fault report that describes the halted block (`60_exceptions.md` R162, R168). -/
def Obligations.EveryStepKeepsTheInvariant : Prop :=
  ∀ s t : State, s.Inv → step s = .next t → t.Inv

/-- The reset state meets the invariant. -/
def Obligations.ResetMeetsTheInvariant : Prop := State.reset.Inv

/-- Every created block meets the invariant, whatever the boot image. -/
def Obligations.CreatedBlocksMeetTheInvariant : Prop :=
  ∀ (image : List Byte) (t : State), create image = .next t → t.Inv

/-- The invariant holds at the end of every run from a state that meets it, completed or faulted, and in every state that
steps lead to. -/
def Obligations.RunsKeepTheInvariant : Prop :=
  ∀ (n : Nat) (s : State), s.Inv →
    (∀ t, run n s = .completed t → t.Inv) ∧ (∀ t report, run n s = .faulted t report → t.Inv) ∧
    ∀ t, StepsTo n s t → t.Inv

/-- `70_reset_and_hazards.md` R196, R197: a run ends in exactly one of two ways; it completes by budget, after `n` steps,
with the block running, or it faults at its first step whose opcode or extended opcode is unmatched, and then the final
state is the state before that step but for the run state. It completes exactly when no state that fewer than `n` steps
lead to has an unmatched opcode. The spec derives R197 from R195 and R196 (D10). -/
def Obligations.RunEndsInOneOfTwoWays : Prop :=
  ∀ (n : Nat) (s : State), s.run = .running →
    ((∃ t, run n s = .completed t ∧ StepsTo n s t ∧ t.run = .running) ∨
      ∃ (k : Nat) (u t : State) (report : FaultReport), k < n ∧ StepsTo k s u ∧ u.run = .running ∧
        (UnmatchedPrimary u ∨ UnmatchedExtended u) ∧ step u = .next t ∧
        t = { u with run := .haltedOnFault report } ∧ run n s = .faulted t report) ∧
    ((∃ t, run n s = .completed t) ↔
      ∀ k u, k < n → StepsTo k s u → ¬ UnmatchedPrimary u ∧ ¬ UnmatchedExtended u)

/-- `70_reset_and_hazards.md` R196: a run takes its steps one by one: no step for the budget 0, and for a budget above it
the step and then the run of what is left. So a completed run "may be stepped further", running on being one longer run;
and a faulted run is the run of every larger budget (D10; a run of a halted block: log entry 14). -/
def Obligations.RunsCompose : Prop :=
  (∀ s : State, s.run = .running → run 0 s = .completed s) ∧
  (∀ (n : Nat) (s t : State), step s = .next t → run (n + 1) s = run n t) ∧
  ∀ (m n : Nat) (s : State),
    (∀ t, run m s = .completed t → run (m + n) s = run n t) ∧
    ∀ t report, run m s = .faulted t report → run (m + n) s = .faulted t report

/-! ### Loads of immediates and registers -/

/-- `40_load_immediate_and_register.md` R100, R101, R104: the 16-bit immediate loads, as meanings and as steps. -/
def Obligations.WordImmediateLoads : Prop :=
  (∀ (v : Word) (s : State), exec (.ldSpD16 v) s = .next { s with sp := v, pc := add16 s.pc 3 }) ∧
  (∀ (v : Word) (s : State), exec (.ldHlD16 v) s =
    .next { s with h := BitVec.ofNat 8 (v.toNat / 256), l := BitVec.ofNat 8 (v.toNat % 256), pc := add16 s.pc 3 }) ∧
  (∀ (v : Word) (s : State), exec (.ldDeD16 v) s =
    .next { s with d := BitVec.ofNat 8 (v.toNat / 256), e := BitVec.ofNat 8 (v.toNat % 256), pc := add16 s.pc 3 }) ∧
  (∀ s : State, s.run = .running → opcodeAt s = 0x31#8 →
    step s = .next { s with sp := s.mem.read16 (add16 s.pc 1), pc := add16 s.pc 3 } ∧
      accesses s = [.read s.pc, .read (add16 s.pc 1), .read (add16 s.pc 2)]) ∧
  (∀ s : State, s.run = .running → opcodeAt s = 0x21#8 →
    step s = .next { s with h := s.mem.read (add16 s.pc 2), l := s.mem.read (add16 s.pc 1), pc := add16 s.pc 3 } ∧
      accesses s = [.read s.pc, .read (add16 s.pc 1), .read (add16 s.pc 2)]) ∧
  ∀ s : State, s.run = .running → opcodeAt s = 0x11#8 →
    step s = .next { s with d := s.mem.read (add16 s.pc 2), e := s.mem.read (add16 s.pc 1), pc := add16 s.pc 3 } ∧
      accesses s = [.read s.pc, .read (add16 s.pc 1), .read (add16 s.pc 2)]

/-- `40_load_immediate_and_register.md` R102, R103, R106: the byte immediate loads, as meanings and as steps. -/
def Obligations.ByteImmediateLoads : Prop :=
  (∀ (n : Byte) (s : State), exec (.ldCD8 n) s = .next { s with c := n, pc := add16 s.pc 2 }) ∧
  (∀ (n : Byte) (s : State), exec (.ldAD8 n) s = .next { s with a := n, pc := add16 s.pc 2 }) ∧
  (∀ (n : Byte) (s : State), exec (.ldBD8 n) s = .next { s with b := n, pc := add16 s.pc 2 }) ∧
  (∀ s : State, s.run = .running → opcodeAt s = 0x0E#8 →
    step s = .next { s with c := s.mem.read (add16 s.pc 1), pc := add16 s.pc 2 } ∧
      accesses s = [.read s.pc, .read (add16 s.pc 1)]) ∧
  (∀ s : State, s.run = .running → opcodeAt s = 0x3E#8 →
    step s = .next { s with a := s.mem.read (add16 s.pc 1), pc := add16 s.pc 2 } ∧
      accesses s = [.read s.pc, .read (add16 s.pc 1)]) ∧
  ∀ s : State, s.run = .running → opcodeAt s = 0x06#8 →
    step s = .next { s with b := s.mem.read (add16 s.pc 1), pc := add16 s.pc 2 } ∧
      accesses s = [.read s.pc, .read (add16 s.pc 1)]

/-- `40_load_immediate_and_register.md` R105. -/
def Obligations.LoadCFromA : Prop :=
  (∀ s : State, exec .ldCA s = .next { s with c := s.a, pc := add16 s.pc 1 }) ∧
  ∀ s : State, s.run = .running → opcodeAt s = 0x4F#8 →
    step s = .next { s with c := s.a, pc := add16 s.pc 1 } ∧ accesses s = [.read s.pc]

/-! ### Loads and stores to memory -/

/-- `41_load_store_memory.md` R110: A is stored at the old HL, then HL is decremented, borrowing into H and wrapping
(D3). -/
def Obligations.StoreThroughHlDecrements : Prop :=
  ∀ s : State,
    (∃ t, exec .ldHlDecA s = .next t ∧
      (∀ x : Word, t.mem.read x = if x = getPair s .hl then s.a else s.mem.read x) ∧
      getPair t .hl = sub16 (getPair s .hl) 1 ∧
      t = { s with h := t.h, l := t.l, mem := t.mem, pc := add16 s.pc 1 }) ∧
    (s.run = .running → opcodeAt s = 0x32#8 →
      step s = exec .ldHlDecA s ∧ accesses s = [.read s.pc, .write (getPair s .hl) s.a])

/-- `41_load_store_memory.md` R112: A is stored at HL, HL stays. -/
def Obligations.StoreThroughHl : Prop :=
  ∀ s : State,
    (∃ t, exec .ldHlIndA s = .next t ∧
      (∀ x : Word, t.mem.read x = if x = getPair s .hl then s.a else s.mem.read x) ∧
      t = { s with mem := t.mem, pc := add16 s.pc 1 }) ∧
    (s.run = .running → opcodeAt s = 0x77#8 →
      step s = exec .ldHlIndA s ∧ accesses s = [.read s.pc, .write (getPair s .hl) s.a])

/-- `41_load_store_memory.md` R111, R113: A is stored at 0xFF00 plus C, or plus the immediate byte, never below 0xFF00. -/
def Obligations.HighPageStores : Prop :=
  ∀ s : State,
    (∃ t, exec .ldCIndA s = .next t ∧
      (∀ x : Word, t.mem.read x = if x.toNat = 0xFF00 + s.c.toNat then s.a else s.mem.read x) ∧
      t = { s with mem := t.mem, pc := add16 s.pc 1 }) ∧
    (∀ n : Byte, ∃ t, exec (.ldhA8A n) s = .next t ∧
      (∀ x : Word, t.mem.read x = if x.toNat = 0xFF00 + n.toNat then s.a else s.mem.read x) ∧
      t = { s with mem := t.mem, pc := add16 s.pc 2 }) ∧
    (s.run = .running → opcodeAt s = 0xE2#8 →
      step s = exec .ldCIndA s ∧ accesses s = [.read s.pc, .write (BitVec.ofNat 16 (0xFF00 + s.c.toNat)) s.a]) ∧
    (s.run = .running → opcodeAt s = 0xE0#8 →
      step s = exec (.ldhA8A (s.mem.read (add16 s.pc 1))) s ∧
      accesses s = [.read s.pc, .read (add16 s.pc 1),
        .write (BitVec.ofNat 16 (0xFF00 + (s.mem.read (add16 s.pc 1)).toNat)) s.a])

/-- `41_load_store_memory.md` R114: A takes the byte at DE. -/
def Obligations.LoadThroughDe : Prop :=
  (∀ s : State, exec .ldADe s = .next { s with a := s.mem.read (getPair s .de), pc := add16 s.pc 1 }) ∧
  ∀ s : State, s.run = .running → opcodeAt s = 0x1A#8 →
    step s = .next { s with a := s.mem.read (BitVec.ofNat 16 (256 * s.d.toNat + s.e.toNat)), pc := add16 s.pc 1 } ∧
      accesses s = [.read s.pc, .read (getPair s .de)]

/-! ### Arithmetic and logic -/

/-- `42_alu.md` R120: A becomes 0 whatever it was; F is not written (D19). -/
def Obligations.XorAClearsAAndWritesNoFlag : Prop :=
  (∀ s : State, exec .xorA s = .next { s with a := 0x00#8, pc := add16 s.pc 1 }) ∧
  ∀ s : State, s.run = .running → opcodeAt s = 0xAF#8 →
    step s = .next { s with a := 0x00#8, pc := add16 s.pc 1 } ∧ accesses s = [.read s.pc]

/-- `42_alu.md` R121: C goes up by one modulo 256; B is not written, nor F (D19). -/
def Obligations.IncCWrapsAndWritesNoFlag : Prop :=
  (∀ s : State, exec .incC s = .next { s with c := BitVec.ofNat 8 ((s.c.toNat + 1) % 256), pc := add16 s.pc 1 }) ∧
  ∀ s : State, s.run = .running → opcodeAt s = 0x0C#8 →
    step s = .next { s with c := BitVec.ofNat 8 ((s.c.toNat + 1) % 256), pc := add16 s.pc 1 } ∧ accesses s = [.read s.pc]

/-! ### Control transfer -/

/-- `43_control_transfer.md` R130: taken exactly when the Zero flag is 0, to the sum of PC, 2 and the signed displacement
modulo 65536 (D3); nothing but PC changes; the displacement is read in both outcomes (D6). -/
def Obligations.RelativeJumpOnNotZero : Prop :=
  (∀ (d : Byte) (s : State), getFlag s .z = false →
    exec (.jpNzR8 d) s = .next { s with pc := BitVec.ofInt 16 (((s.pc.toNat : Int) + 2 + d.toInt) % 65536) }) ∧
  (∀ (d : Byte) (s : State), getFlag s .z = true → exec (.jpNzR8 d) s = .next { s with pc := add16 s.pc 2 }) ∧
  ∀ s : State, s.run = .running → opcodeAt s = 0x20#8 →
    step s = exec (.jpNzR8 (s.mem.read (add16 s.pc 1))) s ∧ accesses s = [.read s.pc, .read (add16 s.pc 1)]

/-- `43_control_transfer.md` R131: CALL pushes PC + 1, low byte at the new SP, and then reads its target from PC + 1.
The two bytes are D4, the order D5 (log entries 4, 5). -/
def Obligations.CallPushesThenReadsItsTarget : Prop :=
  ∀ (target : Word) (s : State),
    (∃ t, exec (.callA16 target) s = .next t ∧
      t.sp = sub16 s.sp 2 ∧
      (∀ x : Word, t.mem.read x =
        if x = sub16 s.sp 2 then lowByte (add16 s.pc 1)
        else if x = sub16 s.sp 1 then highByte (add16 s.pc 1) else s.mem.read x) ∧
      t.pc = t.mem.read16 (add16 s.pc 1) ∧
      t = { s with sp := t.sp, mem := t.mem, pc := t.pc }) ∧
    (s.run = .running → opcodeAt s = 0xCD#8 →
      step s = exec (.callA16 (s.mem.read16 (add16 s.pc 1))) s ∧
      accesses s = [.read s.pc, .write (sub16 s.sp 2) (lowByte (add16 s.pc 1)),
        .write (sub16 s.sp 1) (highByte (add16 s.pc 1)), .read (add16 s.pc 1), .read (add16 s.pc 2)])

/-- `70_reset_and_hazards.md` R201, `43_control_transfer.md` R131: where SP is not PC + 2, PC + 3 or PC + 4, the target of
a CALL is its immediate as it stood. Where SP is one of the three, the push has overwritten the target's low byte, both
its bytes or its high byte (vectors V43.13, V43.12, V43.14). The order of push and read is D5 (log entry 5), the two
pushed bytes are D4 (log entry 4). -/
def Obligations.CallTargetUnderStackOverlap : Prop :=
  ∀ (target : Word) (s t : State), exec (.callA16 target) s = .next t →
    (HoldsAtPc (.callA16 target) s → s.sp ≠ add16 s.pc 2 → s.sp ≠ add16 s.pc 3 → s.sp ≠ add16 s.pc 4 →
      t.pc = target) ∧
    (s.sp = add16 s.pc 2 →
      t.pc.toNat = (add16 s.pc 1).toNat / 256 + 256 * (s.mem.read (add16 s.pc 2)).toNat) ∧
    (s.sp = add16 s.pc 3 → t.pc = add16 s.pc 1) ∧
    (s.sp = add16 s.pc 4 →
      t.pc.toNat = (s.mem.read (add16 s.pc 1)).toNat + 256 * ((add16 s.pc 1).toNat % 256))

/-! ### Stack -/

/-- `44_stack.md` R140, R141: PUSH BC lowers SP by 2 modulo 65536, C at the new SP, B above it (D4, log entry 4);
nothing else changes. -/
def Obligations.PushBcStoresCThenB : Prop :=
  ∀ s : State,
    (∃ t, exec .pushBc s = .next t ∧
      t.sp = sub16 s.sp 2 ∧
      (∀ x : Word, t.mem.read x =
        if x = sub16 s.sp 2 then s.c else if x = sub16 s.sp 1 then s.b else s.mem.read x) ∧
      t = { s with sp := t.sp, mem := t.mem, pc := add16 s.pc 1 }) ∧
    (s.run = .running → opcodeAt s = 0xC5#8 → step s = exec .pushBc s ∧
      accesses s = [.read s.pc, .write (sub16 s.sp 2) s.c, .write (sub16 s.sp 1) s.b])

/-- `44_stack.md` R140, the reading the spec offers as a switch and does not specify (`PUSH_LOW_BYTE_ONLY`, log entry 4):
under it the push leaves the byte at SP + 1; under either reading SP and the byte at SP are the same. -/
def Obligations.PushSwitchConcernsTheHighByteOnly : Prop :=
  ∀ (p : Config.Params) (v : Word) (s : State),
    (push16 p v s).sp = sub16 s.sp 2 ∧ (push16 p v s).mem.read (sub16 s.sp 2) = lowByte v ∧
    (push16 p v s).mem.read (sub16 s.sp 1) =
      (if p.pushLowByteOnly then s.mem.read (sub16 s.sp 1) else highByte v) ∧
    ∀ x : Word, x ≠ sub16 s.sp 2 → x ≠ sub16 s.sp 1 → (push16 p v s).mem.read x = s.mem.read x

/-! ### The prefix and the extended instructions -/

/-- `45_extended_cb.md` R150: the extended decode, as a meaning and as a step; PC goes up once, and not on a fault (D20),
whose report is D8. -/
def Obligations.PrefixDispatchesThroughTheExtendedTable : Prop :=
  (∀ s : State, exec (.prefixCb 0x7C#8) s =
    .next { s with f := if s.h.toNat < 128 then 0x01#8 else 0x00#8, pc := add16 s.pc 2 }) ∧
  (∀ s : State, exec (.prefixCb 0x11#8) s = exec .rlC s ∧ ∃ t, exec .rlC s = .next t) ∧
  (∀ (sub : Byte) (s : State), sub ≠ 0x7C#8 → sub ≠ 0x11#8 →
    exec (.prefixCb sub) s = .next { s with run := .haltedOnFault (faultReport .extended sub s) }) ∧
  ∀ s : State, s.run = .running → opcodeAt s = 0xCB#8 →
    step s = exec (.prefixCb (subOpcodeAt s)) s ∧ accesses s = [.read s.pc, .read (add16 s.pc 1)]

/-- `45_extended_cb.md` R151: all of F is overwritten, with 0x01 if bit 7 of H is 0 and with 0x00 if it is 1. -/
def Obligations.BitSevenOfHOverwritesF : Prop :=
  (∀ s : State, exec .bit7H s =
    .next { s with f := if s.h.toNat < 128 then 0x01#8 else 0x00#8, pc := add16 s.pc 2 }) ∧
  ∀ s : State, s.run = .running → opcodeAt s = 0xCB#8 → subOpcodeAt s = 0x7C#8 →
    step s = exec .bit7H s ∧ accesses s = [.read s.pc, .read (add16 s.pc 1)]

/-- `45_extended_cb.md` R152: C is rotated left through Carry; Carry is the old bit 7, Zero tells whether the new C is 0,
Subtract, Half-Carry and the unused bits are 0. The last clause about F is the byte of R152's sentence about the default
layout, which is the layout of this machine (log entry 3). Zero from the new C is D7, the unused bits D18. -/
def Obligations.RotateCLeftThroughCarry : Prop :=
  ∀ s : State,
    (∃ t, exec .rlC s = .next t ∧
      t.c.toNat = (2 * s.c.toNat + (getFlag s .c).toNat) % 256 ∧
      getFlag t .c = decide (128 ≤ s.c.toNat) ∧ getFlag t .z = decide (t.c = 0x00#8) ∧
      getFlag t .n = false ∧ getFlag t .h = false ∧ UnusedFlagsZero t ∧
      t.f = BitVec.ofNat 8 (8 * (s.c.toNat / 128) + if t.c = 0x00#8 then 1 else 0) ∧
      t = { s with c := t.c, f := t.f, pc := add16 s.pc 2 }) ∧
    (s.run = .running → opcodeAt s = 0xCB#8 → subOpcodeAt s = 0x11#8 →
      step s = exec .rlC s ∧ accesses s = [.read s.pc, .read (add16 s.pc 1)])

/-- `45_extended_cb.md` R152, corner cases: "nine applications restore both", C and Carry, for every flag layout. -/
def Obligations.NineRotationsRestoreCAndCarry : Prop :=
  ∀ (p : Config.Params) (s : State), p.Admissible →
    ((rlCOp p)^[9] s).c = s.c ∧ readFlag p ((rlCOp p)^[9] s).f .c = readFlag p s.f .c

/-! ### Flags under every admissible layout -/

/-- `10_state.md` R25, `00_scope.md` R8: under every admissible layout a flag's write is seen by its own read, by no other
flag's and by no unused bit. -/
def Obligations.FlagsAreSeparateBitsUnderEveryLayout : Prop :=
  ∀ (p : Config.Params) (f : Byte) (fl fl' : FlagName) (v : Bool), p.Admissible →
    readFlag p (writeFlag p f fl v) fl' = (if fl' = fl then v else readFlag p f fl') ∧
    writeFlag p f fl v &&& unusedMask p = f &&& unusedMask p

/-- `10_state.md` R24, R26: the two instructions that write F write all eight bits, the unused ones zero, with the named
flags the table gives, under every admissible layout. Zero of RL C from the new C is D7, the unused bits D18. -/
def Obligations.FlagWritersUnderEveryLayout : Prop :=
  ∀ (p : Config.Params) (s : State), p.Admissible →
    (readFlag p (bit7HOp s).f .z = !s.h.getLsbD 7 ∧ readFlag p (bit7HOp s).f .n = false ∧
      readFlag p (bit7HOp s).f .h = false ∧ readFlag p (bit7HOp s).f .c = false ∧
      (bit7HOp s).f &&& unusedMask p = 0x00#8) ∧
    (readFlag p (rlCOp p s).f .z = decide ((rlCOp p s).c = 0x00#8) ∧ readFlag p (rlCOp p s).f .n = false ∧
      readFlag p (rlCOp p s).f .h = false ∧ readFlag p (rlCOp p s).f .c = s.c.getLsbD 7 ∧
      (rlCOp p s).f &&& unusedMask p = 0x00#8)

/-! ### Frames and whole-machine rules -/

/-- `10_state.md` R29: where PC goes, for every instruction; a step that faults does not write it. CALL's
target is read after its push (D5, log entry 5). -/
def Obligations.ProgramCounterAfterEveryInstruction : Prop :=
  (∀ (i : Instr) (s t : State), exec i s = .next t →
    t.pc = match i with
      | .jpNzR8 d => if getFlag s .z then add16 s.pc 2 else BitVec.ofInt 16 (((s.pc.toNat : Int) + 2 + d.toInt) % 65536)
      | .callA16 _ => t.mem.read16 (add16 s.pc 1)
      | .prefixCb sub => if sub = 0x7C#8 ∨ sub = 0x11#8 then add16 s.pc 2 else s.pc
      | i => add16 s.pc (encode i).length) ∧
  ∀ s t : State, step s = .next t → t.run ≠ .running → t.pc = s.pc

/-- Frame of the instructions that store nothing: LD SP,d16; LD HL,d16; LD DE,d16; LD C,d8; LD A,d8; LD B,d8; LD C,A;
XOR A; INC C; LD A,(DE); JP NZ,r8. No byte of memory changes, no register but the destination and PC, no flag, not the
run state; SP only for LD SP,d16. That XOR A and INC C leave the flags is D19. -/
def Obligations.RegisterInstructionsFrame : Prop :=
  ∀ (i : Instr) (s t : State),
    (match i with
      | .ldSpD16 _ | .ldHlD16 _ | .ldDeD16 _ | .ldCD8 _ | .ldAD8 _ | .ldBD8 _ | .ldCA | .xorA | .incC | .ldADe
      | .jpNzR8 _ => True
      | _ => False) →
    exec i s = .next t →
      RegsKept (writesOf i) s t ∧ t.f = s.f ∧ t.run = s.run ∧ (∀ x : Word, t.mem.read x = s.mem.read x) ∧
      ((∀ v, i ≠ .ldSpD16 v) → t.sp = s.sp)

/-- Frame of the byte stores LD (HL-),A; LD (HL),A; LD (C),A; LDH (a8),A: every byte outside the one address the meaning
stores to reads as before; no register changes but PC and, for LD (HL-),A, H and L. -/
def Obligations.ByteStoresFrame : Prop :=
  ∀ (i : Instr) (s t : State),
    (match i with
      | .ldHlDecA | .ldHlIndA | .ldCIndA | .ldhA8A _ => True
      | _ => False) →
    exec i s = .next t →
      RegsKept (writesOf i) s t ∧ t.f = s.f ∧ t.sp = s.sp ∧ t.run = s.run ∧
      ∀ addr, storesOf i s = [addr] → ∀ x : Word, x ≠ addr → t.mem.read x = s.mem.read x

/-- Frame of CALL a16 and PUSH BC: every byte outside the two at the new SP reads as before; no 8-bit register, no flag and
not the run state changes; SP and PC may. -/
def Obligations.StackInstructionsFrame : Prop :=
  ∀ (i : Instr) (s t : State),
    (match i with
      | .callA16 _ | .pushBc => True
      | _ => False) →
    exec i s = .next t →
      RegsKept [] s t ∧ t.run = s.run ∧ BytesKept [eaPush s, eaPush s + 1#16] s t

/-- Frame of BIT 7,H, RL C and the prefix: no byte of memory, not SP, no register but F and, for RL C, C; an unmatched
extended opcode changes the run state and no register at all, PC included. -/
def Obligations.ExtendedInstructionsFrame : Prop :=
  (∀ (s t : State), exec .bit7H s = .next t → RegsKept [.f] s t ∧ t.sp = s.sp ∧ t.mem = s.mem ∧ t.run = s.run) ∧
  (∀ (s t : State), exec .rlC s = .next t → RegsKept [.c, .f] s t ∧ t.sp = s.sp ∧ t.mem = s.mem ∧ t.run = s.run) ∧
  ∀ (sub : Byte) (s t : State), exec (.prefixCb sub) s = .next t →
    RegsKept (writesOf (.prefixCb sub)) s t ∧ t.sp = s.sp ∧ t.mem = s.mem ∧
    (sub ∉ extendedOpcodes → RegsKept [] s t ∧ t.pc = s.pc) ∧ (sub ∈ extendedOpcodes → t.run = s.run)

/-- `10_state.md` R23, the "writes" column over steps: a register that a step changes was changed by an opcode whose row
lists it; "D and E are written only by LD DE,d16; B only by LD B,d8". -/
def Obligations.RegistersChangeOnlyByTheirRows : Prop :=
  ∀ s t : State, step s = .next t →
    (t.a ≠ s.a → opcodeAt s ∈ [0xAF#8, 0x3E#8, 0x1A#8]) ∧
    (t.b ≠ s.b → opcodeAt s = 0x06#8) ∧
    (t.c ≠ s.c → opcodeAt s ∈ [0x0E#8, 0x0C#8, 0x4F#8] ∨ opcodeAt s = 0xCB#8 ∧ subOpcodeAt s = 0x11#8) ∧
    (t.d ≠ s.d ∨ t.e ≠ s.e → opcodeAt s = 0x11#8) ∧
    (t.h ≠ s.h ∨ t.l ≠ s.l → opcodeAt s ∈ [0x32#8, 0x21#8]) ∧
    (t.f ≠ s.f → opcodeAt s = 0xCB#8 ∧ subOpcodeAt s ∈ [0x7C#8, 0x11#8]) ∧
    (t.sp ≠ s.sp → opcodeAt s = 0x31#8 ∨ opcodeAt s ∈ [0xCD#8, 0xC5#8] ∧ t.sp = sub16 s.sp 2)

/-- `20_memory.md` R65: which instructions reach which bytes: a byte that a step changes is the one HL addresses, one of
page 0xFF00, or one of the two below SP, and the opcode is one of those that store there. -/
def Obligations.BytesChangeOnlyByTheirRows : Prop :=
  ∀ (s t : State) (x : Word), step s = .next t → t.mem.read x ≠ s.mem.read x →
    opcodeAt s ∈ [0x32#8, 0x77#8] ∧ x = getPair s .hl ∨
    opcodeAt s ∈ [0xE2#8, 0xE0#8] ∧ 0xFF00 ≤ x.toNat ∨
    opcodeAt s ∈ [0xCD#8, 0xC5#8] ∧ (x = sub16 s.sp 2 ∨ x = sub16 s.sp 1)

/-- `10_state.md` R23, the "reads" column: what an instruction writes depends on nothing it does not read. Two states with
the same PC, memory and run state that agree on the row's reads give the same PC, memory and written registers; for the
bare prefix the extended opcode is a matched one. SP is the same after an instruction that writes it, and after another
one if it was the same before. -/
def Obligations.ResultsDependOnlyOnTheReads : Prop :=
  ∀ (i : Instr) (s s' t t' : State), s.pc = s'.pc → s.mem = s'.mem → s.run = s'.run → AgreeOnReads s s' i →
    (∀ sub, i = .prefixCb sub → sub ∈ extendedOpcodes) → exec i s = .next t → exec i s' = .next t' →
      t.pc = t'.pc ∧ t.mem = t'.mem ∧ t.run = t'.run ∧ (∀ r ∈ writesOf i, getReg t r = getReg t' r) ∧
      ((∃ v, i = .ldSpD16 v) ∨ i = .pushBc ∨ (∃ v, i = .callA16 v) ∨ s.sp = s'.sp → t.sp = t'.sp)

/-- `20_memory.md` R55, R67: the memory after a step is the memory before it with the writes of the step's access sequence
applied in order; nothing else changes a byte. -/
def Obligations.MemoryChangesAreTheWritesOfTheAccessSequence : Prop :=
  ∀ s t : State, step s = .next t → t.mem = applyAccesses s.mem (accesses s)

/-- `20_memory.md` R70: a store to the very next instruction is what the next step runs: after LD (HL),A with HL at PC + 1
and A the byte of a one-byte instruction, the next step is that instruction's meaning. -/
def Obligations.StoreToTheNextInstructionIsFetched : Prop :=
  ∀ (s : State) (i : Instr), s.run = .running → opcodeAt s = 0x77#8 → getPair s .hl = add16 s.pc 1 →
    encode i = [s.a] → ∃ t, step s = .next t ∧ step t = exec i t

/-- `20_memory.md` R70: "including a store by an instruction to its own bytes (which does not affect the current step": LD
(HL-),A over its own opcode has its whole effect, and a later fetch of that address sees the new byte. -/
def Obligations.StoreToOwnOpcodeTakesEffectLater : Prop :=
  ∀ s : State, s.run = .running → opcodeAt s = 0x32#8 → getPair s .hl = s.pc →
    ∃ t, step s = .next t ∧ t.mem.read s.pc = s.a ∧ t.pc = add16 s.pc 1 ∧ getPair t .hl = sub16 s.pc 1 ∧
      (fetchBytes { t with pc := s.pc }).head? = some s.a
end

