-- ==== Sys2Proof/Laws/Memory.lean ====
section
/-! SUPPORT. The Memory Unit: a read after a write, and the canonical form that every operation keeps. -/

namespace Sys2Proof.Machine

/-! ### Bytes and words -/

@[simp] theorem lowByte_ofBytes (lo hi : Byte) : lowByte (ofBytes lo hi) = lo := by
  ext i hi'
  have h : i < 16 := by omega
  simp [lowByte, ofBytes, hi', h]

@[simp] theorem highByte_ofBytes (lo hi : Byte) : highByte (ofBytes lo hi) = hi := by
  ext i hi'
  have h : 8 + i < 16 ∧ i < 16 := by omega
  simp [highByte, ofBytes, h, BitVec.getLsbD_eq_getElem hi']

@[simp] theorem ofBytes_low_high (v : Word) : ofBytes (lowByte v) (highByte v) = v := by
  ext i hi'
  by_cases h : i < 8
  · simp [lowByte, highByte, ofBytes, h, BitVec.getLsbD_eq_getElem hi']
  · have h' : i - 8 < 8 ∧ 8 + (i - 8) = i := by omega
    simp [lowByte, highByte, ofBytes, h, h', BitVec.getLsbD_eq_getElem hi']

/-- The value of a word from its bytes: `lo + 256 * hi`. -/
theorem toNat_ofBytes (lo hi : Byte) : (ofBytes lo hi).toNat = lo.toNat + 256 * hi.toNat := by
  have hlo := lo.isLt
  have hhi := hi.isLt
  have h := Nat.shiftLeft_add_eq_or_of_lt hlo hi.toNat
  rw [Nat.shiftLeft_eq] at h
  simp only [ofBytes, BitVec.toNat_or, BitVec.toNat_shiftLeft, BitVec.truncate_eq_setWidth, BitVec.toNat_setWidth,
    Nat.shiftLeft_eq]
  rw [Nat.mod_eq_of_lt (by omega : hi.toNat < 2 ^ 16), Nat.mod_eq_of_lt (by omega : lo.toNat < 2 ^ 16),
    Nat.mod_eq_of_lt (by omega), ← h]
  omega

/-- Two neighbouring addresses differ, also across 0xFFFF (`20_memory.md` R58). -/
theorem add_one_ne (a : Word) : a + 1#16 ≠ a := by
  intro h
  have := congrArg BitVec.toNat h
  simp only [BitVec.toNat_add, BitVec.toNat_ofNat] at this
  omega

/-! ### Reads after writes -/

theorem Memory.lookup_filter_self (m : Memory) (k : Nat) :
    Memory.lookup (m.filter fun cell => cell.1 != k) k = 0x00#8 := by
  induction m with
  | nil => rfl
  | cons x rest ih =>
    by_cases h : x.1 = k
    · simpa [List.filter_cons, h] using ih
    · simpa [List.filter_cons, h, Memory.lookup] using ih

theorem Memory.lookup_filter_ne (m : Memory) {k n : Nat} (hne : n ≠ k) :
    Memory.lookup (m.filter fun cell => cell.1 != k) n = Memory.lookup m n := by
  induction m with
  | nil => rfl
  | cons x rest ih =>
    by_cases h : x.1 = k
    · have hx : x.1 ≠ n := fun hn => hne (hn ▸ h)
      simpa [List.filter_cons, h, Memory.lookup, hx, Ne.symm hne] using ih
    · by_cases hn : x.1 = n <;> simp [h, Memory.lookup, hn, hne, ih]

theorem Memory.lookup_insert_self (m : Memory) (k : Nat) (v : Byte) (h : ∀ cell ∈ m, cell.1 ≠ k) :
    Memory.lookup (Memory.insert (k, v) m) k = v := by
  induction m with
  | nil => simp [Memory.insert, Memory.lookup]
  | cons x rest ih =>
    have hx : x.1 ≠ k := h x (by simp)
    simp only [Memory.insert]
    split
    · simp [Memory.lookup]
    · simpa [Memory.lookup, hx] using ih fun cell hc => h cell (by simp [hc])

theorem Memory.lookup_insert_ne (m : Memory) {k n : Nat} (v : Byte) (hne : n ≠ k) :
    Memory.lookup (Memory.insert (k, v) m) n = Memory.lookup m n := by
  induction m with
  | nil => simp [Memory.insert, Memory.lookup, hne.symm]
  | cons x rest ih =>
    simp only [Memory.insert]
    split
    · simp [Memory.lookup, hne.symm]
    · simp [Memory.lookup, ih]

/-- What a write leaves at every address (`20_memory.md` R53). -/
theorem Memory.read_write (m : Memory) (a b : Word) (v : Byte) :
    (m.write a v).read b = if b = a then v else m.read b := by
  by_cases hab : b = a
  · subst hab
    simp only [Memory.read, Memory.write, if_true]
    split
    · rw [Memory.lookup_filter_self]; simp_all
    · exact Memory.lookup_insert_self _ _ _ fun cell hc => by simpa using (List.mem_filter.mp hc).2
  · have hn : b.toNat ≠ a.toNat := fun h => hab (BitVec.eq_of_toNat_eq h)
    simp only [Memory.read, Memory.write, if_neg hab]
    split
    · exact Memory.lookup_filter_ne _ hn
    · rw [Memory.lookup_insert_ne _ _ hn, Memory.lookup_filter_ne _ hn]

@[simp] theorem Memory.read_write_self (m : Memory) (a : Word) (v : Byte) : (m.write a v).read a = v := by simp [Memory.read_write]

theorem Memory.read_write_of_ne (m : Memory) {a b : Word} (v : Byte) (h : b ≠ a) : (m.write a v).read b = m.read b := by
  simp [Memory.read_write, h]

/-- What the two byte stores of a push leave at every address (`44_stack.md` R140). -/
theorem Memory.read_write16 (p : Config.Params) (m : Memory) (a v b : Word) :
    (Memory.write16 p m a v).read b =
      if b = a + 1#16 ∧ p.pushLowByteOnly = false then highByte v else if b = a then lowByte v else m.read b := by
  cases hp : p.pushLowByteOnly <;> simp [Memory.write16, hp, Memory.read_write]

/-! ### The canonical form -/

@[simp] theorem Memory.wf_nil : Memory.wf [] := by simp [Memory.wf]

theorem Memory.wf_filter {m : Memory} (q : Host.Cell → Bool) (h : m.wf) : Memory.wf (m.filter q) :=
  ⟨h.1.filter q, fun cell hc => h.2 cell (List.mem_filter.mp hc).1⟩

theorem Memory.mem_insert {m : Memory} {x y : Host.Cell} : y ∈ Memory.insert x m ↔ y = x ∨ y ∈ m := by
  induction m with
  | nil => simp [Memory.insert]
  | cons z rest ih =>
    simp only [Memory.insert]
    split
    · simp
    · simp only [List.mem_cons, ih]; tauto

theorem Memory.pairwise_insert {m : Memory} {x : Host.Cell} (h : m.Pairwise (fun x y => x.1 < y.1))
    (hx : ∀ cell ∈ m, cell.1 ≠ x.1) : (Memory.insert x m).Pairwise (fun x y => x.1 < y.1) := by
  induction m with
  | nil => simp [Memory.insert]
  | cons z rest ih =>
    obtain ⟨hz, hrest⟩ := List.pairwise_cons.mp h
    have hzx : z.1 ≠ x.1 := hx z (by simp)
    simp only [Memory.insert]
    split
    · rename_i hlt
      refine List.pairwise_cons.mpr ⟨fun y hy => ?_, h⟩
      rcases List.mem_cons.mp hy with rfl | hy
      · exact hlt
      · exact lt_trans hlt (hz y hy)
    · refine List.pairwise_cons.mpr ⟨fun y hy => ?_, ih hrest fun cell hc => hx cell (by simp [hc])⟩
      rcases Memory.mem_insert.mp hy with rfl | hy
      · omega
      · exact hz y hy

/-- A write keeps the canonical form. -/
theorem Memory.wf_write {m : Memory} (a : Word) (v : Byte) (h : m.wf) : Memory.wf (m.write a v) := by
  simp only [Memory.write]
  split
  · exact Memory.wf_filter _ h
  · rename_i hv
    have hf := Memory.wf_filter (fun cell => cell.1 != a.toNat) h
    refine ⟨Memory.pairwise_insert hf.1 fun cell hc => by simpa using (List.mem_filter.mp hc).2, fun cell hc => ?_⟩
    rcases Memory.mem_insert.mp hc with rfl | hc
    · exact ⟨a.isLt, hv⟩
    · exact hf.2 cell hc

/-- The push's stores keep the canonical form. -/
theorem Memory.wf_write16 (p : Config.Params) {m : Memory} (a v : Word) (h : m.wf) : Memory.wf (Memory.write16 p m a v) := by
  simp only [Memory.write16]
  split
  · exact Memory.wf_write _ _ h
  · exact Memory.wf_write _ _ (Memory.wf_write _ _ h)

/-- Storing a list of bytes keeps the canonical form. -/
theorem wf_storeBytes {m : Memory} (a : Word) (bytes : List Byte) (h : m.wf) : (storeBytes m a bytes).wf := by
  induction bytes generalizing m a with
  | nil => exact h
  | cons v rest ih => exact ih _ (Memory.wf_write _ _ h)

/-- Reset memory has the canonical form. -/
theorem wf_reset : State.reset.mem.wf := Memory.wf_nil

end Sys2Proof.Machine
end

