-- ==== Sys2Proof/Laws/State.lean ====
section
/-! SUPPORT. What each update of the state leaves in each field, once, so that no later proof unfolds a record update. -/

namespace Sys2Proof.Machine

variable (s : State)

/-! ### `setPc` -/

@[simp] theorem setPc_a (v : Word) : (setPc s v).a = s.a := rfl
@[simp] theorem setPc_f (v : Word) : (setPc s v).f = s.f := rfl
@[simp] theorem setPc_b (v : Word) : (setPc s v).b = s.b := rfl
@[simp] theorem setPc_c (v : Word) : (setPc s v).c = s.c := rfl
@[simp] theorem setPc_d (v : Word) : (setPc s v).d = s.d := rfl
@[simp] theorem setPc_e (v : Word) : (setPc s v).e = s.e := rfl
@[simp] theorem setPc_h (v : Word) : (setPc s v).h = s.h := rfl
@[simp] theorem setPc_l (v : Word) : (setPc s v).l = s.l := rfl
@[simp] theorem setPc_sp (v : Word) : (setPc s v).sp = s.sp := rfl
@[simp] theorem setPc_pc (v : Word) : (setPc s v).pc = v := rfl
@[simp] theorem setPc_mem (v : Word) : (setPc s v).mem = s.mem := rfl
@[simp] theorem setPc_run (v : Word) : (setPc s v).run = s.run := rfl

/-! ### `setSp` -/

@[simp] theorem setSp_a (v : Word) : (setSp s v).a = s.a := rfl
@[simp] theorem setSp_f (v : Word) : (setSp s v).f = s.f := rfl
@[simp] theorem setSp_b (v : Word) : (setSp s v).b = s.b := rfl
@[simp] theorem setSp_c (v : Word) : (setSp s v).c = s.c := rfl
@[simp] theorem setSp_d (v : Word) : (setSp s v).d = s.d := rfl
@[simp] theorem setSp_e (v : Word) : (setSp s v).e = s.e := rfl
@[simp] theorem setSp_h (v : Word) : (setSp s v).h = s.h := rfl
@[simp] theorem setSp_l (v : Word) : (setSp s v).l = s.l := rfl
@[simp] theorem setSp_sp (v : Word) : (setSp s v).sp = v := rfl
@[simp] theorem setSp_pc (v : Word) : (setSp s v).pc = s.pc := rfl
@[simp] theorem setSp_mem (v : Word) : (setSp s v).mem = s.mem := rfl
@[simp] theorem setSp_run (v : Word) : (setSp s v).run = s.run := rfl

/-! ### `advance` -/

@[simp] theorem advance_a (n : Nat) : (advance n s).a = s.a := rfl
@[simp] theorem advance_f (n : Nat) : (advance n s).f = s.f := rfl
@[simp] theorem advance_b (n : Nat) : (advance n s).b = s.b := rfl
@[simp] theorem advance_c (n : Nat) : (advance n s).c = s.c := rfl
@[simp] theorem advance_d (n : Nat) : (advance n s).d = s.d := rfl
@[simp] theorem advance_e (n : Nat) : (advance n s).e = s.e := rfl
@[simp] theorem advance_h (n : Nat) : (advance n s).h = s.h := rfl
@[simp] theorem advance_l (n : Nat) : (advance n s).l = s.l := rfl
@[simp] theorem advance_sp (n : Nat) : (advance n s).sp = s.sp := rfl
@[simp] theorem advance_pc (n : Nat) : (advance n s).pc = s.pc + BitVec.ofNat 16 n := rfl
@[simp] theorem advance_mem (n : Nat) : (advance n s).mem = s.mem := rfl
@[simp] theorem advance_run (n : Nat) : (advance n s).run = s.run := rfl

/-! ### `storeByte` -/

@[simp] theorem storeByte_a (addr : Word) (v : Byte) : (storeByte s addr v).a = s.a := rfl
@[simp] theorem storeByte_f (addr : Word) (v : Byte) : (storeByte s addr v).f = s.f := rfl
@[simp] theorem storeByte_b (addr : Word) (v : Byte) : (storeByte s addr v).b = s.b := rfl
@[simp] theorem storeByte_c (addr : Word) (v : Byte) : (storeByte s addr v).c = s.c := rfl
@[simp] theorem storeByte_d (addr : Word) (v : Byte) : (storeByte s addr v).d = s.d := rfl
@[simp] theorem storeByte_e (addr : Word) (v : Byte) : (storeByte s addr v).e = s.e := rfl
@[simp] theorem storeByte_h (addr : Word) (v : Byte) : (storeByte s addr v).h = s.h := rfl
@[simp] theorem storeByte_l (addr : Word) (v : Byte) : (storeByte s addr v).l = s.l := rfl
@[simp] theorem storeByte_sp (addr : Word) (v : Byte) : (storeByte s addr v).sp = s.sp := rfl
@[simp] theorem storeByte_pc (addr : Word) (v : Byte) : (storeByte s addr v).pc = s.pc := rfl
@[simp] theorem storeByte_mem (addr : Word) (v : Byte) : (storeByte s addr v).mem = s.mem.write addr v := rfl
@[simp] theorem storeByte_run (addr : Word) (v : Byte) : (storeByte s addr v).run = s.run := rfl

/-! ### `push16` -/

@[simp] theorem push16_a (p : Config.Params) (v : Word) : (push16 p v s).a = s.a := rfl
@[simp] theorem push16_f (p : Config.Params) (v : Word) : (push16 p v s).f = s.f := rfl
@[simp] theorem push16_b (p : Config.Params) (v : Word) : (push16 p v s).b = s.b := rfl
@[simp] theorem push16_c (p : Config.Params) (v : Word) : (push16 p v s).c = s.c := rfl
@[simp] theorem push16_d (p : Config.Params) (v : Word) : (push16 p v s).d = s.d := rfl
@[simp] theorem push16_e (p : Config.Params) (v : Word) : (push16 p v s).e = s.e := rfl
@[simp] theorem push16_h (p : Config.Params) (v : Word) : (push16 p v s).h = s.h := rfl
@[simp] theorem push16_l (p : Config.Params) (v : Word) : (push16 p v s).l = s.l := rfl
@[simp] theorem push16_sp (p : Config.Params) (v : Word) : (push16 p v s).sp = eaPush s := rfl
@[simp] theorem push16_pc (p : Config.Params) (v : Word) : (push16 p v s).pc = s.pc := rfl
@[simp] theorem push16_mem (p : Config.Params) (v : Word) : (push16 p v s).mem = Memory.write16 p s.mem (eaPush s) v := rfl
@[simp] theorem push16_run (p : Config.Params) (v : Word) : (push16 p v s).run = s.run := rfl

/-! ### `setReg` and `setPair` -/

@[simp] theorem setReg_a (r : Reg) (v : Byte) : (setReg s r v).a = if r = .a then v else s.a := by cases r <;> rfl
@[simp] theorem setReg_f (r : Reg) (v : Byte) : (setReg s r v).f = if r = .f then v else s.f := by cases r <;> rfl
@[simp] theorem setReg_b (r : Reg) (v : Byte) : (setReg s r v).b = if r = .b then v else s.b := by cases r <;> rfl
@[simp] theorem setReg_c (r : Reg) (v : Byte) : (setReg s r v).c = if r = .c then v else s.c := by cases r <;> rfl
@[simp] theorem setReg_d (r : Reg) (v : Byte) : (setReg s r v).d = if r = .d then v else s.d := by cases r <;> rfl
@[simp] theorem setReg_e (r : Reg) (v : Byte) : (setReg s r v).e = if r = .e then v else s.e := by cases r <;> rfl
@[simp] theorem setReg_h (r : Reg) (v : Byte) : (setReg s r v).h = if r = .h then v else s.h := by cases r <;> rfl
@[simp] theorem setReg_l (r : Reg) (v : Byte) : (setReg s r v).l = if r = .l then v else s.l := by cases r <;> rfl
@[simp] theorem setReg_sp (r : Reg) (v : Byte) : (setReg s r v).sp = s.sp := by cases r <;> rfl
@[simp] theorem setReg_pc (r : Reg) (v : Byte) : (setReg s r v).pc = s.pc := by cases r <;> rfl
@[simp] theorem setReg_mem (r : Reg) (v : Byte) : (setReg s r v).mem = s.mem := by cases r <;> rfl
@[simp] theorem setReg_run (r : Reg) (v : Byte) : (setReg s r v).run = s.run := by cases r <;> rfl

theorem getReg_setReg (r r' : Reg) (v : Byte) : getReg (setReg s r v) r' = if r' = r then v else getReg s r' := by
  cases r <;> cases r' <;> rfl

@[simp] theorem getReg_setReg_self (r : Reg) (v : Byte) : getReg (setReg s r v) r = v := by simp [getReg_setReg]

@[simp] theorem setPair_a (p : Pair) (v : Word) : (setPair s p v).a = if p = .af then highByte v else s.a := by cases p <;> rfl
@[simp] theorem setPair_f (p : Pair) (v : Word) : (setPair s p v).f = if p = .af then lowByte v else s.f := by cases p <;> rfl
@[simp] theorem setPair_b (p : Pair) (v : Word) : (setPair s p v).b = if p = .bc then highByte v else s.b := by cases p <;> rfl
@[simp] theorem setPair_c (p : Pair) (v : Word) : (setPair s p v).c = if p = .bc then lowByte v else s.c := by cases p <;> rfl
@[simp] theorem setPair_d (p : Pair) (v : Word) : (setPair s p v).d = if p = .de then highByte v else s.d := by cases p <;> rfl
@[simp] theorem setPair_e (p : Pair) (v : Word) : (setPair s p v).e = if p = .de then lowByte v else s.e := by cases p <;> rfl
@[simp] theorem setPair_h (p : Pair) (v : Word) : (setPair s p v).h = if p = .hl then highByte v else s.h := by cases p <;> rfl
@[simp] theorem setPair_l (p : Pair) (v : Word) : (setPair s p v).l = if p = .hl then lowByte v else s.l := by cases p <;> rfl
@[simp] theorem setPair_sp (p : Pair) (v : Word) : (setPair s p v).sp = s.sp := by simp [setPair]
@[simp] theorem setPair_pc (p : Pair) (v : Word) : (setPair s p v).pc = s.pc := by simp [setPair]
@[simp] theorem setPair_mem (p : Pair) (v : Word) : (setPair s p v).mem = s.mem := by simp [setPair]
@[simp] theorem setPair_run (p : Pair) (v : Word) : (setPair s p v).run = s.run := by simp [setPair]

/-- The halves of a pair are different registers (`10_state.md` R22). -/
theorem Pair.hi_ne_lo (p : Pair) : p.hi ≠ p.lo := by cases p <;> decide

theorem getReg_setPair (p : Pair) (v : Word) (r : Reg) :
    getReg (setPair s p v) r = if r = p.lo then lowByte v else if r = p.hi then highByte v else getReg s r := by
  simp [setPair, getReg_setReg]

/-! ### What `getReg` sees of the other updates -/

@[simp] theorem getReg_setPc (v : Word) (r : Reg) : getReg (setPc s v) r = getReg s r := by cases r <;> rfl
@[simp] theorem getReg_setSp (v : Word) (r : Reg) : getReg (setSp s v) r = getReg s r := by cases r <;> rfl
@[simp] theorem getReg_advance (n : Nat) (r : Reg) : getReg (advance n s) r = getReg s r := by cases r <;> rfl
@[simp] theorem getReg_storeByte (addr : Word) (v : Byte) (r : Reg) : getReg (storeByte s addr v) r = getReg s r := by
  cases r <;> rfl
@[simp] theorem getReg_push16 (p : Config.Params) (v : Word) (r : Reg) : getReg (push16 p v s) r = getReg s r := by
  cases r <;> rfl

/-! ### The sub-operations behind the prefix -/

@[simp] theorem bit7HOp_f : (bit7HOp s).f = bit7Flags s.h := rfl
@[simp] theorem bit7HOp_sp : (bit7HOp s).sp = s.sp := rfl
@[simp] theorem bit7HOp_pc : (bit7HOp s).pc = s.pc := rfl
@[simp] theorem bit7HOp_mem : (bit7HOp s).mem = s.mem := rfl
@[simp] theorem bit7HOp_run : (bit7HOp s).run = s.run := rfl

@[simp] theorem rlCOp_c (p : Config.Params) : (rlCOp p s).c = rotateLeft s.c (readFlag p s.f .c) := rfl
@[simp] theorem rlCOp_f (p : Config.Params) :
    (rlCOp p s).f = rotateFlags p s.c (rotateLeft s.c (readFlag p s.f .c)) := rfl
@[simp] theorem rlCOp_sp (p : Config.Params) : (rlCOp p s).sp = s.sp := rfl
@[simp] theorem rlCOp_pc (p : Config.Params) : (rlCOp p s).pc = s.pc := rfl
@[simp] theorem rlCOp_mem (p : Config.Params) : (rlCOp p s).mem = s.mem := rfl
@[simp] theorem rlCOp_run (p : Config.Params) : (rlCOp p s).run = s.run := rfl

theorem getReg_bit7HOp (r : Reg) : getReg (bit7HOp s) r = if r = .f then bit7Flags s.h else getReg s r := by
  cases r <;> rfl

/-- RL C writes C and F and no other register (`10_state.md` R23). -/
theorem getReg_rlCOp_of_ne (p : Config.Params) (r : Reg) (hc : r ≠ .c) (hf : r ≠ .f) :
    getReg (rlCOp p s) r = getReg s r := by
  cases r <;> first | rfl | contradiction

end Sys2Proof.Machine
end

