-- ==== Sys2Proof/Laws/Exec.lean ====
section
/-! SUPPORT. What the meanings and the shared operations can do, once each. -/

namespace Sys2Proof.Machine

/-! ### The fault -/

theorem raise_next {kind : FaultKind} {opcode : Byte} {s t : State} (h : raiseUnimplementedOpcode kind opcode s = .next t) :
    t = { s with run := .haltedOnFault (faultReport kind opcode s) } := by
  simpa [raiseUnimplementedOpcode] using h.symm

/-! ### The push -/

/-- What `push16` leaves, in full (`44_stack.md` R140). -/
theorem push16_eq (p : Config.Params) (v : Word) (s : State) :
    push16 p v s = { s with sp := s.sp - 2#16, mem := Memory.write16 p s.mem (s.sp - 2#16) v } := rfl

/-- This machine's push stores both bytes (`44_stack.md` R140). -/
theorem read_push16 (v : Word) (s : State) (b : Word) :
    (push16 params v s).mem.read b =
      if b = s.sp - 2#16 + 1#16 then highByte v else if b = s.sp - 2#16 then lowByte v else s.mem.read b := by
  simp [push16, eaPush, Memory.read_write16, params]

/-! ### The meaning of an instruction, one equation each -/

variable (s : State)

theorem exec_ldSpD16 (v : Word) : exec (.ldSpD16 v) s = .next (advance 3 (setSp s v)) := rfl
theorem exec_ldHlDecA :
    exec .ldHlDecA s = .next (advance 1 (setPair (storeByte s (eaHl s) s.a) .hl (eaHl s - 1#16))) := rfl
theorem exec_xorA : exec .xorA s = .next (advance 1 (setReg s .a 0x00#8)) := by
  simp [exec, execXorA]
theorem exec_ldHlD16 (v : Word) : exec (.ldHlD16 v) s = .next (advance 3 (setPair s .hl v)) := rfl
theorem exec_prefixCb (sub : Byte) :
    exec (.prefixCb sub) s =
      if sub = 0x7C#8 then exec .bit7H s else if sub = 0x11#8 then exec .rlC s
      else raiseUnimplementedOpcode .extended sub s := rfl
theorem exec_jpNzR8 (d : Byte) :
    exec (.jpNzR8 d) s =
      .next (if getFlag s .z then advance 2 s else setPc s (s.pc + 2#16 + displacement d)) := by
  simp only [exec, execJpNzR8]; split <;> rfl
theorem exec_ldCD8 (n : Byte) : exec (.ldCD8 n) s = .next (advance 2 (setReg s .c n)) := rfl
theorem exec_ldAD8 (n : Byte) : exec (.ldAD8 n) s = .next (advance 2 (setReg s .a n)) := rfl
theorem exec_ldCIndA : exec .ldCIndA s = .next (advance 1 (storeByte s (eaHighC s) s.a)) := rfl
theorem exec_incC : exec .incC s = .next (advance 1 (setReg s .c (s.c + 1#8))) := rfl
theorem exec_ldHlIndA : exec .ldHlIndA s = .next (advance 1 (storeByte s (eaHl s) s.a)) := rfl
theorem exec_ldhA8A (n : Byte) : exec (.ldhA8A n) s = .next (advance 2 (storeByte s (eaHighImm n) s.a)) := rfl
theorem exec_ldDeD16 (v : Word) : exec (.ldDeD16 v) s = .next (advance 3 (setPair s .de v)) := rfl
theorem exec_ldADe : exec .ldADe s = .next (advance 1 (setReg s .a (s.mem.read (eaDe s)))) := rfl
theorem exec_callA16 (v : Word) : exec (.callA16 v) s = .next (callWith params s) := rfl
theorem exec_ldCA : exec .ldCA s = .next (advance 1 (setReg s .c s.a)) := rfl
theorem exec_ldBD8 (n : Byte) : exec (.ldBD8 n) s = .next (advance 2 (setReg s .b n)) := rfl
theorem exec_pushBc : exec .pushBc s = .next (advance 1 (push16 params (getPair s .bc) s)) := rfl
theorem exec_bit7H : exec .bit7H s = .next (advance 2 (bit7HOp s)) := rfl
theorem exec_rlC : exec .rlC s = .next (advance 2 (rlCOp params s)) := rfl

/-- The memory after an instruction is the memory before it, or that memory after the instruction's own store. -/
theorem exec_mem {i : Instr} {s t : State} (h : exec i s = .next t) :
    t.mem = s.mem ∨ (∃ a v, t.mem = s.mem.write a v) ∨ ∃ v, t.mem = Memory.write16 params s.mem (eaPush s) v := by
  cases i
  case ldHlDecA => rw [exec_ldHlDecA] at h; cases h; exact .inr (.inl ⟨eaHl s, s.a, by simp⟩)
  case ldCIndA => rw [exec_ldCIndA] at h; cases h; exact .inr (.inl ⟨_, _, rfl⟩)
  case ldHlIndA => rw [exec_ldHlIndA] at h; cases h; exact .inr (.inl ⟨_, _, rfl⟩)
  case ldhA8A => rw [exec_ldhA8A] at h; cases h; exact .inr (.inl ⟨_, _, rfl⟩)
  case callA16 => rw [exec_callA16] at h; cases h; exact .inr (.inr ⟨_, rfl⟩)
  case pushBc => rw [exec_pushBc] at h; cases h; exact .inr (.inr ⟨_, rfl⟩)
  case prefixCb sub =>
    left
    rw [exec_prefixCb, exec_bit7H, exec_rlC] at h
    split at h
    · cases h; simp
    · split at h
      · cases h; simp
      · rw [raise_next h]
  case jpNzR8 => rw [exec_jpNzR8] at h; cases h; left; split <;> simp
  all_goals
    left
    simp only [exec_ldSpD16, exec_xorA, exec_ldHlD16, exec_ldCD8, exec_ldAD8, exec_incC, exec_ldDeD16, exec_ldADe,
      exec_ldCA, exec_ldBD8, exec_bit7H, exec_rlC] at h
    cases h
    simp

end Sys2Proof.Machine
end

