-- ==== Sys2Proof/Laws/PerInstr.lean ====
section
/-! SUPPORT. Statements made for every instruction, one lemma per constructor. -/

namespace Sys2Proof.Laws.EncodeLength

/-- An instruction is encoded in as many bytes as the Length column of `30_encoding.md` R86 gives it. -/
def Statement (i : Instr) : Prop := (encode i).length = i.byteLength

theorem ldSpD16 (d16 : Word) : Statement (.ldSpD16 d16) := rfl
theorem ldHlDecA : Statement .ldHlDecA := rfl
theorem xorA : Statement .xorA := rfl
theorem ldHlD16 (d16 : Word) : Statement (.ldHlD16 d16) := rfl
theorem prefixCb (sub : Byte) : Statement (.prefixCb sub) := rfl
theorem jpNzR8 (r8 : Byte) : Statement (.jpNzR8 r8) := rfl
theorem ldCD8 (d8 : Byte) : Statement (.ldCD8 d8) := rfl
theorem ldAD8 (d8 : Byte) : Statement (.ldAD8 d8) := rfl
theorem ldCIndA : Statement .ldCIndA := rfl
theorem incC : Statement .incC := rfl
theorem ldHlIndA : Statement .ldHlIndA := rfl
theorem ldhA8A (a8 : Byte) : Statement (.ldhA8A a8) := rfl
theorem ldDeD16 (d16 : Word) : Statement (.ldDeD16 d16) := rfl
theorem ldADe : Statement .ldADe := rfl
theorem callA16 (a16 : Word) : Statement (.callA16 a16) := rfl
theorem ldCA : Statement .ldCA := rfl
theorem ldBD8 (d8 : Byte) : Statement (.ldBD8 d8) := rfl
theorem pushBc : Statement .pushBc := rfl
theorem bit7H : Statement .bit7H := rfl
theorem rlC : Statement .rlC := rfl

end Sys2Proof.Laws.EncodeLength
end

