-- ==== Sys2Proof/Laws/Step.lean ====
section
/-! SUPPORT. What a step can do, once. -/

namespace Sys2Proof.Machine

theorem step_of_running {s : State} (hr : s.run = .running) :
    step s = match decode (fetchBytes s) with
      | .ok (i, _) => exec i s
      | .error _ => raisePrimary s := by
  cases hd : decode (fetchBytes s) <;> simp [step, hr, hd]

/-- A step that answers a next state was requested of a running block, and either ran the decoded instruction or took
the fault of the byte at PC (`30_encoding.md` R81). -/
theorem step_next {s t : State} (h : step s = .next t) :
    s.run = .running ∧
      ((∃ i rest, decode (fetchBytes s) = .ok (i, rest) ∧ exec i s = .next t) ∨
        ((∃ e, decode (fetchBytes s) = .error e) ∧
          t = { s with run := .haltedOnFault (faultReport .primary (s.mem.read s.pc) s) })) := by
  cases hr : s.run with
  | haltedOnFault r => simp [step, hr] at h
  | running =>
    refine ⟨rfl, ?_⟩
    rw [step_of_running hr] at h
    split at h
    · rename_i i rest hd; exact .inl ⟨i, rest, hd, h⟩
    · rename_i e hd; exact .inr ⟨⟨e, hd⟩, raise_next h⟩

/-- Three bytes stored from PC on are the three bytes fetched (`30_encoding.md` R81, `20_memory.md` R58). -/
theorem fetchBytes_storeBytes (s : State) (b0 b1 b2 : Byte) :
    fetchBytes { s with mem := storeBytes s.mem s.pc [b0, b1, b2], run := .running } = [b0, b1, b2] := by
  have h01 : s.pc ≠ s.pc + 1#16 := (add_one_ne s.pc).symm
  have h12 : s.pc + 1#16 ≠ s.pc + 2#16 := by bv_omega
  have h02 : s.pc ≠ s.pc + 2#16 := by bv_omega
  have e : s.pc + 1#16 + 1#16 = s.pc + 2#16 := by bv_omega
  simp [fetchBytes, storeBytes, Memory.read_write, e, h01, h02, h12]

theorem length_tableBytes (nbits w : Nat) : ∃ b0 b1 b2, tableBytes nbits w = [b0, b1, b2] := by
  simp only [tableBytes]; split <;> exact ⟨_, _, _, rfl⟩

/-- With a table row's number stored at PC, the next step runs the instruction the decoder reads from that number. -/
theorem step_withFetchWord (s : State) (nbits w : Nat) (i : Instr) (h : decodeTableWord nbits w = some i) :
    step (s.withFetchWord nbits w) = exec i (s.withFetchWord nbits w) := by
  obtain ⟨b0, b1, b2, hb⟩ := length_tableBytes nbits w
  have hf : fetchBytes (s.withFetchWord nbits w) = tableBytes nbits w := by
    simp only [State.withFetchWord, hb]; exact fetchBytes_storeBytes s b0 b1 b2
  rw [step_of_running rfl, hf]
  cases hd : decode (tableBytes nbits w) with
  | error e => simp [decodeTableWord, hd] at h
  | ok r =>
    have : r.1 = i := by simpa [decodeTableWord, hd] using h
    exact congrArg (fun j => exec j _) this

end Sys2Proof.Machine
end

