-- ==== Sys2Proof/Tests/Slice0.lean ====
section
/-! SUPPORT. Tests of the model against the spec's own examples (`95_test_vectors.md`, cited by number) and encodings
(`30_encoding.md` R86), and a witness for the hypotheses of each statement. -/

namespace Sys2Proof.Tests

open Sys2Proof Sys2Proof.Machine

/-! ### Well-formedness -/

theorem test_wf_refuses_bit7H_as_prefix : ¬ (Instr.prefixCb 0x7C#8).WellFormed := by decide
theorem test_wf_refuses_rlC_as_prefix : ¬ (Instr.prefixCb 0x11#8).WellFormed := by decide
theorem test_wf_takes_unmatched_prefix : (Instr.prefixCb 0x7D#8).WellFormed := by decide

/-! ### Decoding: each row's bytes, written out from R86, with the operand bytes of the vectors -/

theorem test_decode_ldSpD16 : decode [0x31#8, 0x00#8, 0x01#8] = .ok (.ldSpD16 0x0100#16, []) := by decide
theorem test_decode_ldHlDecA : decode [0x32#8] = .ok (.ldHlDecA, []) := by decide
theorem test_decode_xorA : decode [0xAF#8] = .ok (.xorA, []) := by decide
theorem test_decode_ldHlD16 : decode [0x21#8, 0xFF#8, 0x9F#8] = .ok (.ldHlD16 0x9FFF#16, []) := by decide
theorem test_decode_prefixCb : decode [0xCB#8, 0xCB#8, 0x7C#8] = .ok (.prefixCb 0xCB#8, [0x7C#8]) := by decide
theorem test_decode_jpNzR8 : decode [0x20#8, 0xFA#8] = .ok (.jpNzR8 0xFA#8, []) := by decide
theorem test_decode_ldCD8 : decode [0x0E#8, 0x11#8] = .ok (.ldCD8 0x11#8, []) := by decide
theorem test_decode_ldAD8 : decode [0x3E#8, 0x80#8] = .ok (.ldAD8 0x80#8, []) := by decide
theorem test_decode_ldCIndA : decode [0xE2#8] = .ok (.ldCIndA, []) := by decide
theorem test_decode_incC : decode [0x0C#8] = .ok (.incC, []) := by decide
theorem test_decode_ldHlIndA : decode [0x77#8] = .ok (.ldHlIndA, []) := by decide
theorem test_decode_ldhA8A : decode [0xE0#8, 0x47#8] = .ok (.ldhA8A 0x47#8, []) := by decide
theorem test_decode_ldDeD16 : decode [0x11#8, 0x04#8, 0x01#8] = .ok (.ldDeD16 0x0104#16, []) := by decide
theorem test_decode_ldADe : decode [0x1A#8] = .ok (.ldADe, []) := by decide
theorem test_decode_callA16 : decode [0xCD#8, 0x95#8, 0x00#8] = .ok (.callA16 0x0095#16, []) := by decide
theorem test_decode_ldCA : decode [0x4F#8] = .ok (.ldCA, []) := by decide
theorem test_decode_ldBD8 : decode [0x06#8, 0x04#8] = .ok (.ldBD8 0x04#8, []) := by decide
theorem test_decode_pushBc : decode [0xC5#8] = .ok (.pushBc, []) := by decide
theorem test_decode_bit7H : decode [0xCB#8, 0x7C#8] = .ok (.bit7H, []) := by decide
theorem test_decode_rlC : decode [0xCB#8, 0x11#8] = .ok (.rlC, []) := by decide
/-- R84: no decoding by the opcode grid. -/
theorem test_decode_neighbours_unmatched :
    ∀ b ∈ [0x01#8, 0x16#8, 0x3C#8, 0x47#8, 0xA8#8, 0xD5#8, 0x00#8, 0xFF#8],
      decode [b, 0x00#8, 0x00#8] = .error (.unmatchedPrimary b) := by decide
theorem test_decode_truncated : decode [0x31#8, 0x00#8] = .error (.truncated 0x31#8) := by decide

/-- The table's numbers (`opcode_table.json`, "fixed", with the bits above zero) give the table's rows. -/
theorem test_table_rows :
    [(8, 0x31), (8, 0x32), (8, 0xAF), (8, 0x21), (8, 0xCB), (8, 0x20), (8, 0x0E), (8, 0x3E), (8, 0xE2), (8, 0x0C)].map
        (fun r => decodeTableWord r.1 r.2) =
      [some (.ldSpD16 0), some .ldHlDecA, some .xorA, some (.ldHlD16 0), some (.prefixCb 0), some (.jpNzR8 0),
        some (.ldCD8 0), some (.ldAD8 0), some .ldCIndA, some .incC] := by decide
theorem test_table_rows_rest :
    [(8, 0x77), (8, 0xE0), (8, 0x11), (8, 0x1A), (8, 0xCD), (8, 0x4F), (8, 0x06), (8, 0xC5), (16, 0xCB7C),
        (16, 0xCB11)].map (fun r => decodeTableWord r.1 r.2) =
      [some .ldHlIndA, some (.ldhA8A 0), some (.ldDeD16 0), some .ldADe, some (.callA16 0), some .ldCA,
        some (.ldBD8 0), some .pushBc, some .bit7H, some .rlC] := by decide
/-- Numbers with the first byte low, operand bytes included (`decodeTableWord`'s other reading, log entry 9). -/
theorem test_table_low_first :
    [(16, 0x7CCB), (16, 0x11CB), (24, 0x010031), (16, 0xFA20), (16, 0xCB0E), (24, 0x00CB11)].map
        (fun r => decodeTableWord r.1 r.2) =
      [some .bit7H, some .rlC, some (.ldSpD16 0x0100#16), some (.jpNzR8 0xFA#8), some (.ldCD8 0xCB#8),
        some (.ldDeD16 0x00CB#16)] := by decide

/-! ### Steps -/

/-- A block at reset but for PC and the bytes from PC on. -/
def block (pc : Word) (bytes : List Byte) : State :=
  { State.reset with pc := pc, mem := storeBytes [] pc bytes }

/-- One field of the state after a step. -/
def after {α : Type} (s : State) (field : State → α) : Option α :=
  match step s with
  | .next t => some (field t)
  | .fault _ => none
  | .refused _ => none

/-- V40.8: the operand wraps past 0xFFFF. -/
theorem test_ldSpD16_wraps :
    after (block 0xFFFE#16 [0x31#8, 0x34#8, 0x12#8]) (fun t => (t.sp, t.pc)) = some (0x1234#16, 0x0001#16) := by decide
/-- S4. -/
theorem test_ldSpD16 :
    after (block 0x0000#16 [0x31#8, 0x00#8, 0x01#8]) (fun t => (t.sp, t.pc)) = some (0x0100#16, 0x0003#16) := by decide
/-- V40.1. -/
theorem test_ldHlD16 :
    after (block 0x0004#16 [0x21#8, 0xFF#8, 0x9F#8]) (fun t => (t.h, t.l, t.pc)) =
      some (0x9F#8, 0xFF#8, 0x0007#16) := by decide
/-- V40.2. -/
theorem test_ldDeD16 :
    after (block 0x0020#16 [0x11#8, 0x04#8, 0x01#8]) (fun t => (t.d, t.e, t.pc)) =
      some (0x01#8, 0x04#8, 0x0023#16) := by decide
/-- V40.3. -/
theorem test_ldCD8 :
    after { block 0x0010#16 [0x0E#8, 0x11#8] with b := 0x12#8 } (fun t => (t.b, t.c, t.pc)) =
      some (0x12#8, 0x11#8, 0x0012#16) := by decide
/-- V40.4. -/
theorem test_ldAD8 :
    after (block 0x0010#16 [0x3E#8, 0x80#8]) (fun t => (t.a, t.f, t.pc)) = some (0x80#8, 0x00#8, 0x0012#16) := by decide
/-- V40.5. -/
theorem test_ldBD8 :
    after { block 0x0010#16 [0x06#8, 0x04#8] with c := 0x11#8 } (fun t => (t.b, t.c, t.pc)) =
      some (0x04#8, 0x11#8, 0x0012#16) := by decide
/-- V40.7: PC wraps. -/
theorem test_ldCA :
    after { block 0xFFFF#16 [0x4F#8] with a := 0x5A#8 } (fun t => (t.c, t.a, t.pc)) =
      some (0x5A#8, 0x5A#8, 0x0000#16) := by decide
/-- V41.1: HL wraps after the store. -/
theorem test_ldHlDecA_wraps :
    after { block 0x0100#16 [0x32#8] with a := 0x42#8 } (fun t => (t.mem.read 0x0000#16, t.h, t.l, t.pc)) =
      some (0x42#8, 0xFF#8, 0xFF#8, 0x0101#16) := by decide
/-- V41.3: the instruction overwrites its own opcode. -/
theorem test_ldHlDecA_over_itself :
    after { block 0x0100#16 [0x32#8] with a := 0x0C#8, h := 0x01#8 } (fun t => (t.mem, t.h, t.l, t.pc)) =
      some ([(0x0100, 0x0C#8)], 0x00#8, 0xFF#8, 0x0101#16) := by decide
/-- V41.5: C is zero-extended. -/
theorem test_ldCIndA :
    after { block 0x0100#16 [0xE2#8] with a := 0x01#8, c := 0x80#8 } (fun t => (t.mem.read 0xFF80#16, t.pc)) =
      some (0x01#8, 0x0101#16) := by decide
/-- V41.7. -/
theorem test_ldHlIndA :
    after { block 0x0100#16 [0x77#8] with a := 0x80#8, h := 0xFF#8, l := 0x26#8 }
        (fun t => (t.mem.read 0xFF26#16, t.h, t.l, t.pc)) =
      some (0x80#8, 0xFF#8, 0x26#8, 0x0101#16) := by decide
/-- V41.9. -/
theorem test_ldhA8A_top :
    after { block 0x0100#16 [0xE0#8, 0xFF#8] with a := 0xFC#8 } (fun t => (t.mem.read 0xFFFF#16, t.pc)) =
      some (0xFC#8, 0x0102#16) := by decide
/-- V41.10: the operand is read before the store replaces it. -/
theorem test_ldhA8A_over_operand :
    after { block 0xFEFF#16 [0xE0#8, 0x00#8] with a := 0x77#8 } (fun t => (t.mem.read 0xFF00#16, t.pc)) =
      some (0x77#8, 0xFF01#16) := by decide
/-- V41.12: it loads its own opcode. -/
theorem test_ldADe_self :
    after { block 0x0100#16 [0x1A#8] with d := 0x01#8 } (fun t => (t.a, t.pc)) = some (0x1A#8, 0x0101#16) := by decide
/-- V41.13: a never-written byte is 0x00. -/
theorem test_ldADe_unwritten :
    after { block 0x0100#16 [0x1A#8] with d := 0xC0#8, a := 0x55#8 } (fun t => t.a) = some 0x00#8 := by decide
/-- S5, with F = 0x09 kept. -/
theorem test_xorA :
    after { block 0x0100#16 [0xAF#8] with a := 0xFF#8, f := 0x09#8 } (fun t => (t.a, t.f, t.pc)) =
      some (0x00#8, 0x09#8, 0x0101#16) := by decide
/-- V42.2: no carry into B, no flag. -/
theorem test_incC_wraps :
    after { block 0x0100#16 [0x0C#8] with b := 0x12#8, c := 0xFF#8 } (fun t => (t.b, t.c, t.f)) =
      some (0x12#8, 0x00#8, 0x00#8) := by decide
/-- V43.1, V43.2: only Zero is tested. -/
theorem test_jpNzR8_taken :
    after { block 0x000A#16 [0x20#8, 0xFA#8] with f := 0x08#8 } (fun t => t.pc) = some 0x0006#16 := by decide
theorem test_jpNzR8_not_taken :
    after { block 0x000A#16 [0x20#8, 0xFA#8] with f := 0x09#8 } (fun t => t.pc) = some 0x000C#16 := by decide
/-- V43.12, V43.13, V43.14: the stack overlaps the immediate. -/
theorem test_callA16_overlap :
    after { block 0x0200#16 [0xCD#8, 0x34#8, 0x12#8] with sp := 0x0203#16 } (fun t => (t.sp, t.mem, t.pc)) =
      some (0x0201#16, [(0x0200, 0xCD#8), (0x0201, 0x01#8), (0x0202, 0x02#8)], 0x0201#16) := by decide
theorem test_callA16_half_overlap :
    [0x0202#16, 0x0204#16].map (fun sp =>
        after { block 0x0200#16 [0xCD#8, 0x34#8, 0x12#8] with sp := sp } fun t => (t.sp, t.pc)) =
      [some (0x0200#16, 0x1202#16), some (0x0202#16, 0x0134#16)] := by decide
/-- V44.1, V44.3: low byte at the new SP; SP wraps. -/
theorem test_pushBc :
    after { block 0x0100#16 [0xC5#8] with b := 0x04#8, c := 0x11#8, sp := 0xFFFE#16 }
        (fun t => (t.sp, t.mem.read 0xFFFC#16, t.mem.read 0xFFFD#16, t.pc)) =
      some (0xFFFC#16, 0x11#8, 0x04#8, 0x0101#16) := by decide
theorem test_pushBc_wraps :
    after { block 0x0100#16 [0xC5#8] with b := 0xAB#8, c := 0xCD#8, sp := 0x0001#16 }
        (fun t => (t.sp, t.mem.read 0xFFFF#16, t.mem.read 0x0000#16)) =
      some (0xFFFF#16, 0xCD#8, 0xAB#8) := by decide
/-- S8: the literal polarity; V45.15: the extended opcode wraps. -/
theorem test_bit7H_set :
    after { block 0x0008#16 [0xCB#8, 0x7C#8] with h := 0x80#8, f := 0x09#8 } (fun t => (t.f, t.h, t.pc)) =
      some (0x00#8, 0x80#8, 0x000A#16) := by decide
theorem test_bit7H_clear_wrapped :
    after (block 0xFFFF#16 [0xCB#8, 0x7C#8]) (fun t => (t.f, t.pc)) = some (0x01#8, 0x0001#16) := by decide
/-- V45.3, V45.4: the second tells decision D7 (Zero from the new C) from the other reading. -/
theorem test_rlC :
    after { block 0x0100#16 [0xCB#8, 0x11#8] with c := 0xCE#8, b := 0x55#8 } (fun t => (t.c, t.f, t.b, t.pc)) =
      some (0x9C#8, 0x08#8, 0x55#8, 0x0102#16) := by decide
theorem test_rlC_zero :
    after { block 0x0100#16 [0xCB#8, 0x11#8] with c := 0x80#8 } (fun t => (t.c, t.f)) = some (0x00#8, 0x09#8) := by decide
/-- S9 and V45.13: the fault, its report, and the step after it. -/
theorem test_fault_primary :
    after { block 0x0100#16 [0xFF#8] with a := 0x01#8 } (fun t => (t.run, t.pc, t.a)) =
      some (.haltedOnFault { kind := .primary, opcode := 0xFF#8, pc := 0x0100#16, snapshot := { a := 0x01#8, f := 0x00#8, b := 0x00#8, c := 0x00#8, d := 0x00#8, e := 0x00#8, h := 0x00#8, l := 0x00#8, sp := 0x0000#16, pc := 0x0100#16 } },
        0x0100#16, 0x01#8) := by decide
theorem test_prefixCb_fault :
    after (block 0x0008#16 [0xCB#8, 0x00#8])
        (fun t => (t.pc, match t.run with | .running => none | .haltedOnFault r => some (r.kind, r.opcode, r.pc))) =
      some (0x0008#16, some (.extended, 0x00#8, 0x0008#16)) := by decide
/-- V70.2: an image of another length is refused. -/
theorem test_create_refuses_short_image :
    (match create [0x31#8, 0x00#8] with | .refused (.bootImageLength n) => n | _ => 0) = 2 := by decide
/-- V43.12 and V43.2, the "trace" columns. -/
theorem test_accesses_call :
    accesses { block 0x0200#16 [0xCD#8, 0x34#8, 0x12#8] with sp := 0x0203#16 } =
      [.read 0x0200#16, .write 0x0201#16 0x01#8, .write 0x0202#16 0x02#8, .read 0x0201#16, .read 0x0202#16] := by decide
theorem test_accesses_jp_not_taken :
    accesses { block 0x000A#16 [0x20#8, 0xFA#8] with f := 0x09#8 } = [.read 0x000A#16, .read 0x000B#16] := by decide
theorem test_trace_record :
    traceRecord (block 0x0008#16 [0xCB#8, 0x7C#8]) =
      some { pc := 0x0008#16, opcode := 0xCB#8, extended := some 0x7C#8 } := by decide
theorem test_no_trace_record_of_a_fault : traceRecord (block 0x0100#16 [0x01#8]) = none := by decide

/-! ### Witnesses: states and operands that meet each statement's hypotheses -/

theorem witness_DecodeOfEncode : (Instr.prefixCb 0xFF#8).WellFormed ∧ (Instr.callA16 0xFFFF#16).WellFormed := by decide
theorem witness_DecodedBytes : decode [0xCB#8, 0xFF#8, 0x00#8] = .ok (.prefixCb 0xFF#8, [0x00#8]) := by decide
theorem witness_Length :
    decode [0x31#8, 0xFF#8, 0xFF#8] = .ok (.ldSpD16 0xFFFF#16, []) ∧
    (block 0xFFFF#16 [0x30#8]).run = .running ∧ UnmatchedPrimary (block 0xFFFF#16 [0x30#8]) := by decide
/-- For UnmatchedPrimaryOpcodesFault, the first clause of FaultEntry, StepRuns' third clause and StepFaultsExactly's first
access clause: bytes beside matched ones, at the ends of memory. -/
theorem witness_UnmatchedPrimary :
    (block 0xFFFF#16 [0xFF#8]).run = .running ∧ opcodeAt (block 0xFFFF#16 [0xFF#8]) ∉ primaryOpcodes ∧
    opcodeAt (block 0x0000#16 [0x05#8]) ∉ primaryOpcodes := by decide
/-- For UnmatchedExtendedOpcodesFault, the second clause of FaultEntry and StepFaultsExactly's second access clause. -/
theorem witness_UnmatchedExtended :
    (block 0xFFFF#16 [0xCB#8, 0x7D#8]).run = .running ∧ opcodeAt (block 0xFFFF#16 [0xCB#8, 0x7D#8]) = 0xCB#8 ∧
    subOpcodeAt (block 0xFFFF#16 [0xCB#8, 0x7D#8]) ≠ 0x7C#8 ∧ subOpcodeAt (block 0xFFFF#16 [0xCB#8, 0x7D#8]) ≠ 0x11#8 ∧
    UnmatchedExtended (block 0xFFFF#16 [0xCB#8, 0x7D#8]) := by decide
theorem witness_MemoryLaws : (0x0000#16 : Word) ≠ 0xFFFF#16 := by decide
theorem witness_MemoriesThatReadTheSame :
    Memory.wf [(0, 0x01#8), (65535, 0xFF#8)] ∧
      ∀ a : Word, Memory.read [(0, 0x01#8), (65535, 0xFF#8)] a = Memory.read [(0, 0x01#8), (65535, 0xFF#8)] a :=
  ⟨by decide, fun _ => rfl⟩
theorem witness_Creation : (List.replicate 256 0xFF#8 : List Byte).length = 256 :=
  List.length_replicate
theorem witness_OtherImageLengths :
    (List.replicate 255 0xFF#8 : List Byte).length ≠ 256 ∧ (List.replicate 257 0xFF#8 : List Byte).length ≠ 256 := by
  rw [List.length_replicate, List.length_replicate]; decide
theorem witness_StepRuns :
    (block 0xFFFF#16 [0xCB#8, 0x11#8]).run = .running ∧
    decode (fetchBytes (block 0xFFFF#16 [0xCB#8, 0x11#8])) = .ok (.rlC, [0x00#8]) := by decide
theorem witness_HoldsAtPc :
    HoldsAtPc (.callA16 0x1234#16) (block 0xFFFF#16 [0xCD#8, 0x34#8, 0x12#8]) ∧
    (Instr.callA16 0x1234#16).WellFormed := by unfold HoldsAtPc; decide
/-- For StepFaultsExactlyOnUnmatchedBytes, each clause. -/
theorem witness_StepFaultsExactly :
    (block 0x0000#16 [0x00#8]).run = .running ∧ (∀ sub, Instr.xorA ≠ .prefixCb sub) ∧ 0x11#8 ∈ extendedOpcodes :=
  ⟨by decide, by simp, by decide⟩
/-- A halted block, as a step leaves it. -/
def halted : State := { State.reset with run := .haltedOnFault (faultReport .primary 0x00#8 State.reset) }
theorem witness_Halted : halted.run = .haltedOnFault (faultReport .primary 0x00#8 State.reset) := rfl
/-- For EveryStepKeepsTheInvariant, RunsKeepTheInvariant and RunsCompose: a block that steps, and one that faults. -/
theorem witness_Inv : (block 0xFFFF#16 [0xC5#8]).Inv :=
  ⟨by decide, by decide, fun _ h => by cases h⟩
theorem witness_Inv_steps : ∃ t, step (block 0xFFFF#16 [0xC5#8]) = .next t := ⟨_, rfl⟩
theorem witness_Inv_completes : ∃ t, run 1 (block 0xFFFF#16 [0xC5#8]) = .completed t := ⟨_, rfl⟩
theorem witness_Inv_faults : ∃ t r, run 2 (block 0xFFFF#16 [0xC5#8]) = .faulted t r := ⟨_, _, rfl⟩
theorem witness_StepsTo : ∃ t, StepsTo 1 (block 0xFFFF#16 [0xC5#8]) t := ⟨_, _, rfl, rfl⟩
theorem witness_Created : ∃ t, create (List.replicate 256 0x00#8) = .next t :=
  ⟨_, if_pos List.length_replicate⟩
theorem witness_RunEnds : (block 0x0000#16 [0x0C#8]).run = .running := rfl
/-- For the step clauses of the result statements, access sequences among them: every opcode stands at the top of memory
in some running block. -/
theorem witness_ResultSteps :
    ∀ b ∈ primaryOpcodes, (block 0xFFFF#16 [b]).run = .running ∧ opcodeAt (block 0xFFFF#16 [b]) = b := by decide
theorem witness_ExtendedSteps :
    ∀ b ∈ extendedOpcodes, (block 0xFFFF#16 [0xCB#8, b]).run = .running ∧
      opcodeAt (block 0xFFFF#16 [0xCB#8, b]) = 0xCB#8 ∧ subOpcodeAt (block 0xFFFF#16 [0xCB#8, b]) = b := by decide
theorem witness_RelativeJump :
    getFlag { State.reset with f := 0xFE#8 } .z = false ∧ getFlag { State.reset with f := 0x01#8 } .z = true := by decide
/-- A CALL at the top of memory with a given SP. -/
def callBlock (sp : Word) : State := setSp (block 0xFFFF#16 [0xCD#8, 0x34#8, 0x12#8]) sp
/-- For CallTargetUnderStackOverlap, first clause: one address beside the overlap on each side. -/
theorem witness_CallNoOverlap :
    (HoldsAtPc (.callA16 0x1234#16) (callBlock 0x0000#16) ∧ HoldsAtPc (.callA16 0x1234#16) (callBlock 0x0004#16)) ∧
    (0x0000#16 ≠ add16 0xFFFF#16 2 ∧ 0x0000#16 ≠ add16 0xFFFF#16 3 ∧ 0x0000#16 ≠ add16 0xFFFF#16 4) ∧
    0x0004#16 ≠ add16 0xFFFF#16 2 ∧ 0x0004#16 ≠ add16 0xFFFF#16 3 ∧ 0x0004#16 ≠ add16 0xFFFF#16 4 :=
  ⟨by unfold HoldsAtPc; decide, by decide, by decide⟩
/-- For the three clauses of the overlap. -/
theorem witness_CallOverlap :
    (∀ sp, ∃ t, exec (.callA16 0x1234#16) (callBlock sp) = .next t) ∧
    (callBlock 0x0001#16).sp = add16 (callBlock 0x0001#16).pc 2 ∧
    (callBlock 0x0002#16).sp = add16 (callBlock 0x0002#16).pc 3 ∧
    (callBlock 0x0003#16).sp = add16 (callBlock 0x0003#16).pc 4 :=
  ⟨fun _ => ⟨_, rfl⟩, by decide, by decide, by decide⟩
theorem witness_PrefixUnmatched : (0x7B#8 : Byte) ≠ 0x7C#8 ∧ (0x7B#8 : Byte) ≠ 0x11#8 := by decide
/-- The defaults, and the two ends of the admissible range (`00_scope.md` R6). -/
theorem witness_Admissible :
    params.Admissible ∧ (Config.Params.mk 7 6 5 false 1#16).Admissible ∧ (Config.Params.mk 3 1 7 true 3#16).Admissible := by
  decide
/-- For the frames, ProgramCounterAfterEveryInstruction and the two "reads" states of ResultsDependOnlyOnTheReads. -/
theorem witness_Frames :
    ∀ i ∈ [Instr.ldSpD16 0xFFFF#16, .ldHlDecA, .xorA, .ldHlD16 0xFFFF#16, .prefixCb 0x7C#8, .prefixCb 0xFF#8, .jpNzR8 0x80#8,
        .ldCD8 0xFF#8, .ldAD8 0xFF#8, .ldCIndA, .incC, .ldHlIndA, .ldhA8A 0xFF#8, .ldDeD16 0xFFFF#16, .ldADe,
        .callA16 0xFFFF#16, .ldCA, .ldBD8 0xFF#8, .pushBc, .bit7H, .rlC],
      (match exec i State.reset with | .next _ => true | _ => false) = true := by decide
theorem witness_ByteStores : storesOf .ldHlDecA { State.reset with h := 0xFF#8, l := 0xFF#8 } = [0xFFFF#16] := by decide
theorem witness_Reads :
    AgreeOnReads State.reset { State.reset with sp := 0x0100#16 } (.ldSpD16 0xFFFF#16) ∧
    AgreeOnReads State.reset { State.reset with b := 0x01#8, f := 0x01#8 } .rlC ∧
    AgreeOnReads State.reset { State.reset with a := 0x01#8, f := 0x08#8 } (.jpNzR8 0x80#8) := by
  unfold AgreeOnReads; decide
/-- For each clause of RegistersChangeOnlyByTheirRows: a step that changes the clause's register. -/
theorem witness_RegistersChange :
    (after (block 0xFFFF#16 [0x3E#8, 0xFF#8]) fun t => decide (t.a ≠ 0x00#8)) = some true ∧
    (after (block 0xFFFF#16 [0x06#8, 0xFF#8]) fun t => decide (t.b ≠ 0x00#8)) = some true ∧
    (after (block 0xFFFF#16 [0x0E#8, 0xFF#8]) fun t => decide (t.c ≠ 0x00#8)) = some true ∧
    (after (block 0xFFFF#16 [0x11#8, 0x00#8, 0xFF#8]) fun t => decide (t.d ≠ 0x00#8)) = some true ∧
    (after (block 0xFFFF#16 [0x21#8, 0xFF#8, 0x00#8]) fun t => decide (t.l ≠ 0x00#8)) = some true ∧
    (after (block 0xFFFF#16 [0xCB#8, 0x7C#8]) fun t => decide (t.f ≠ 0x00#8)) = some true ∧
    (after (block 0xFFFF#16 [0xC5#8]) fun t => decide (t.sp ≠ 0x0000#16)) = some true := by decide
theorem witness_BytesChange :
    (after { block 0x0100#16 [0x77#8] with a := 0x01#8 } fun t => decide (t.mem.read 0x0000#16 ≠ 0x00#8)) = some true := by
  decide
theorem witness_StoreToNext :
    (block 0xFFFF#16 [0x77#8]).run = .running ∧
    opcodeAt { block 0xFFFF#16 [0x77#8] with a := 0x0C#8 } = 0x77#8 ∧
    getPair { block 0xFFFF#16 [0x77#8] with a := 0x0C#8 } .hl = add16 0xFFFF#16 1 ∧ encode .incC = [0x0C#8] := by decide
theorem witness_StoreToOwn :
    opcodeAt { block 0x0000#16 [0x32#8] with a := 0xFF#8 } = 0x32#8 ∧
    getPair { block 0x0000#16 [0x32#8] with a := 0xFF#8 } .hl = 0x0000#16 := by decide

end Sys2Proof.Tests
end

namespace Sys2Proof

/-! ## The decoder, read backwards: what bytes a decoded instruction came from -/

theorem operand8_eq_ok {opcode : Byte} {k : Byte → Instr} {bytes rest : List Byte} {i : Instr}
    (h : operand8 opcode k bytes = .ok (i, rest)) : ∃ n, bytes = n :: rest ∧ i = k n := by
  cases bytes with
  | nil => simp [operand8] at h
  | cons n tail =>
    simp only [operand8, Except.ok.injEq, Prod.mk.injEq] at h
    obtain ⟨rfl, rfl⟩ := h
    exact ⟨n, rfl, rfl⟩

theorem operand16_eq_ok {opcode : Byte} {k : Word → Instr} {bytes rest : List Byte} {i : Instr}
    (h : operand16 opcode k bytes = .ok (i, rest)) :
    ∃ v, bytes = lowByte v :: highByte v :: rest ∧ i = k v := by
  match bytes, h with
  | lo :: hi :: tail, h =>
    simp only [operand16, Except.ok.injEq, Prod.mk.injEq] at h
    obtain ⟨rfl, rfl⟩ := h
    exact ⟨ofBytes lo hi, by simp, rfl⟩

theorem not_mem_extendedOpcodes {sub : Byte} : sub ∉ extendedOpcodes ↔ sub ≠ 0x7C#8 ∧ sub ≠ 0x11#8 := by
  simp [extendedOpcodes]

/-- The extended table gives an instruction whose bytes are 0xCB and the byte it was keyed by (`30_encoding.md` R86). -/
theorem decodeExtended_spec (sub : Byte) :
    (decodeExtended sub).WellFormed ∧ encode (decodeExtended sub) = [0xCB#8, sub] := by
  unfold decodeExtended
  split
  · exact ⟨trivial, rfl⟩
  · exact ⟨trivial, rfl⟩
  · rename_i h1 h2
    exact ⟨not_mem_extendedOpcodes.mpr ⟨h1, h2⟩, rfl⟩

/-- Bytes that decode are those of a well-formed instruction, and after them what the decoder left
(`30_encoding.md` R82). -/
theorem wellFormed_and_encode_of_decode {bytes rest : List Byte} {i : Instr} (h : decode bytes = .ok (i, rest)) :
    i.WellFormed ∧ encode i ++ rest = bytes := by
  unfold decode at h
  split at h
  · cases h
  · -- The cases are the decoder's rows in order; the fifth is 0xCB, the last the byte without a row (R88).
    split at h
    case h_5 =>
      obtain ⟨sub, rfl, rfl⟩ := operand8_eq_ok h
      obtain ⟨hwf, henc⟩ := decodeExtended_spec sub
      exact ⟨hwf, by simp [henc]⟩
    case h_19 => cases h
    case h_1 | h_4 | h_13 | h_15 =>
      obtain ⟨v, rfl, rfl⟩ := operand16_eq_ok h
      exact ⟨trivial, rfl⟩
    case h_6 | h_7 | h_8 | h_12 | h_17 =>
      obtain ⟨n, rfl, rfl⟩ := operand8_eq_ok h
      exact ⟨trivial, rfl⟩
    all_goals
      cases h
      exact ⟨trivial, rfl⟩

/-- Three bytes fail to decode only for want of a row for the first one (`30_encoding.md` R88). -/
theorem not_mem_primaryOpcodes_of_decode_error {b0 b1 b2 : Byte} {e : DecodeError}
    (h : decode [b0, b1, b2] = .error e) : b0 ∉ Machine.primaryOpcodes := by
  intro hmem
  fin_cases hmem <;> cases h

end Sys2Proof

namespace Sys2Proof.Machine

/-- The bytes of the decoded instruction stand from PC on (`30_encoding.md` R81). -/
theorem fetched_bytes {s : State} {i : Instr} {rest : List Byte} (h : decode (fetchBytes s) = .ok (i, rest)) :
    i.WellFormed ∧ encode i ++ rest = [opcodeAt s, subOpcodeAt s, s.mem.read (s.pc + 2#16)] :=
  wellFormed_and_encode_of_decode h

/-- A bare 0xCB row is decoded only where the byte after it has no row of its own (`30_encoding.md` R94). -/
theorem fetched_prefixCb {s : State} {sub : Byte} {rest : List Byte}
    (h : decode (fetchBytes s) = .ok (.prefixCb sub, rest)) : UnmatchedExtended s ∧ sub = subOpcodeAt s := by
  obtain ⟨hwf, hbytes⟩ := fetched_bytes h
  simp only [encode, List.cons_append, List.nil_append, List.cons.injEq] at hbytes
  obtain ⟨hop, rfl, -⟩ := hbytes
  exact ⟨⟨hop.symm, hwf⟩, rfl⟩

/-! ## Words and bytes over the natural numbers -/

theorem add16_eq_add (a : Word) (n : Nat) : add16 a n = a + BitVec.ofNat 16 n := by
  apply BitVec.eq_of_toNat_eq
  simp [add16, BitVec.toNat_add]

theorem sub16_two (a : Word) : sub16 a 2 = a - 2#16 := by
  simp only [sub16]
  bv_omega

theorem lowByte_eq_ofNat (v : Word) : lowByte v = BitVec.ofNat 8 (v.toNat % 256) := by
  apply BitVec.eq_of_toNat_eq
  simp [lowByte]

theorem highByte_eq_ofNat (v : Word) : highByte v = BitVec.ofNat 8 (v.toNat / 256) := by
  apply BitVec.eq_of_toNat_eq
  simp [highByte, Nat.shiftRight_eq_div_pow]

/-- The target of a taken JP NZ,r8 over the integers (`43_control_transfer.md` R130). -/
theorem add_two_add_displacement (pc : Word) (d : Byte) :
    pc + 2#16 + displacement d = BitVec.ofInt 16 (((pc.toNat : Int) + 2 + d.toInt) % 65536) := by
  have hd : displacement d = BitVec.ofInt 16 d.toInt := rfl
  apply BitVec.eq_of_toNat_eq
  simp only [hd, BitVec.toNat_add, BitVec.toNat_ofInt, BitVec.toNat_ofNat]
  omega

/-! ## The state after an instruction -/

/-- The state that the fault of an unmatched byte leaves (`60_exceptions.md` R168). -/
def haltedBy (kind : FaultKind) (opcode : Byte) (s : State) : State :=
  { s with run := .haltedOnFault (faultReport kind opcode s) }

/-- The state that an instruction leads to: every instruction, the faulting 0xCB included, has one. -/
def result (i : Instr) (s : State) : State :=
  match i with
  | .ldSpD16 v => advance 3 (setSp s v)
  | .ldHlDecA => advance 1 (setPair (storeByte s (eaHl s) s.a) .hl (eaHl s - 1#16))
  | .xorA => advance 1 (setReg s .a 0x00#8)
  | .ldHlD16 v => advance 3 (setPair s .hl v)
  | .prefixCb sub =>
    if sub = 0x7C#8 then advance 2 (bit7HOp s)
    else if sub = 0x11#8 then advance 2 (rlCOp params s)
    else haltedBy .extended sub s
  | .jpNzR8 d => if getFlag s .z then advance 2 s else setPc s (s.pc + 2#16 + displacement d)
  | .ldCD8 n => advance 2 (setReg s .c n)
  | .ldAD8 n => advance 2 (setReg s .a n)
  | .ldCIndA => advance 1 (storeByte s (eaHighC s) s.a)
  | .incC => advance 1 (setReg s .c (s.c + 1#8))
  | .ldHlIndA => advance 1 (storeByte s (eaHl s) s.a)
  | .ldhA8A n => advance 2 (storeByte s (eaHighImm n) s.a)
  | .ldDeD16 v => advance 3 (setPair s .de v)
  | .ldADe => advance 1 (setReg s .a (s.mem.read (eaDe s)))
  | .callA16 _ => callWith params s
  | .ldCA => advance 1 (setReg s .c s.a)
  | .ldBD8 n => advance 2 (setReg s .b n)
  | .pushBc => advance 1 (push16 params (getPair s .bc) s)
  | .bit7H => advance 2 (bit7HOp s)
  | .rlC => advance 2 (rlCOp params s)

/-- `exec` answers `result`, whatever the instruction and the state. -/
theorem exec_eq_result (i : Instr) (s : State) : exec i s = .next (result i s) := by
  cases i
  case xorA => exact exec_xorA s
  case jpNzR8 d => exact exec_jpNzR8 s d
  case prefixCb sub =>
    rw [exec_prefixCb]
    simp only [result]
    split
    · rfl
    · split <;> rfl
  all_goals rfl

theorem exec_next {i : Instr} {s t : State} (h : exec i s = .next t) : t = result i s := by
  rw [exec_eq_result] at h
  exact (Host.Outcome.next.inj h).symm

/-- The three things the 0xCB row can do (`45_extended_cb.md` R150): one of the two sub-operations, or the fault. -/
theorem result_prefixCb_cases (sub : Byte) (s : State) :
    (sub = 0x7C#8 ∧ result (.prefixCb sub) s = result .bit7H s) ∨
    (sub = 0x11#8 ∧ result (.prefixCb sub) s = result .rlC s) ∨
    (sub ∉ extendedOpcodes ∧ result (.prefixCb sub) s = haltedBy .extended sub s) := by
  by_cases h7C : sub = 0x7C#8
  · exact .inl ⟨h7C, by simp [result, h7C]⟩
  · by_cases h11 : sub = 0x11#8
    · exact .inr (.inl ⟨h11, by simp [result, h11]⟩)
    · exact .inr (.inr ⟨not_mem_extendedOpcodes.mpr ⟨h7C, h11⟩, by simp [result, h7C, h11]⟩)

/-! ### What an instruction writes, register by register -/

theorem regsKept_bit7H (s : State) : RegsKept [.f] s (result .bit7H s) := by
  intro r hr
  simp [result, getReg_bit7HOp, List.mem_singleton.not.mp hr]

theorem regsKept_rlC (s : State) : RegsKept [.c, .f] s (result .rlC s) := by
  intro r hr
  simp only [List.mem_cons, List.not_mem_nil, or_false, not_or] at hr
  obtain ⟨hc, hf⟩ := hr
  exact getReg_rlCOp_of_ne s params r hc hf

theorem regsKept_haltedBy (except : List Reg) (kind : FaultKind) (opcode : Byte) (s : State) :
    RegsKept except s (haltedBy kind opcode s) := by
  intro r _
  cases r <;> rfl

/-- The "writes" column of `10_state.md` R23: every other 8-bit register keeps its value. -/
theorem regsKept_result (i : Instr) (s : State) : RegsKept (writesOf i) s (result i s) := by
  cases i
  case bit7H => exact regsKept_bit7H s
  case rlC => exact regsKept_rlC s
  case prefixCb sub =>
    obtain ⟨rfl, h⟩ | ⟨rfl, h⟩ | ⟨-, h⟩ := result_prefixCb_cases sub s <;> rw [h]
    · exact regsKept_bit7H s
    · exact regsKept_rlC s
    · exact regsKept_haltedBy _ .extended sub s
  all_goals intro r hr
  case jpNzR8 d => simp only [result]; split <;> simp
  case callA16 v => simp [result, callWith]
  all_goals
    simp only [writesOf, List.mem_cons, List.not_mem_nil, or_false, not_or] at hr
    simp [result, getReg_setReg, getReg_setPair, Pair.hi, Pair.lo, hr]

/-- SP after an instruction: written by LD SP,d16, lowered by the two that push (`10_state.md` R23). -/
def spAfter (i : Instr) (s : State) : Word :=
  match i with
  | .ldSpD16 v => v
  | .callA16 _ | .pushBc => eaPush s
  | .ldHlDecA | .xorA | .ldHlD16 _ | .prefixCb _ | .jpNzR8 _ | .ldCD8 _ | .ldAD8 _ | .ldCIndA | .incC | .ldHlIndA
  | .ldhA8A _ | .ldDeD16 _ | .ldADe | .ldCA | .ldBD8 _ | .bit7H | .rlC => s.sp

theorem result_sp (i : Instr) (s : State) : (result i s).sp = spAfter i s := by
  cases i
  case prefixCb sub => obtain ⟨-, h⟩ | ⟨-, h⟩ | ⟨-, h⟩ := result_prefixCb_cases sub s <;> rw [h] <;> rfl
  case jpNzR8 d => simp only [result]; split <;> rfl
  all_goals simp [result, spAfter, callWith]

/-- The matched rows leave the run state; the 0xCB row with an unmatched byte halts the block
(`60_exceptions.md` R161). -/
theorem result_run (i : Instr) (s : State) :
    (result i s).run = s.run ∨
      ∃ sub, i = .prefixCb sub ∧ sub ∉ extendedOpcodes ∧ result i s = haltedBy .extended sub s := by
  cases i
  case prefixCb sub =>
    obtain ⟨-, h⟩ | ⟨-, h⟩ | ⟨hsub, h⟩ := result_prefixCb_cases sub s
    · exact .inl (by rw [h]; rfl)
    · exact .inl (by rw [h]; rfl)
    · exact .inr ⟨sub, rfl, hsub, h⟩
  case jpNzR8 d => simp only [result]; split <;> simp
  case ldHlDecA => exact .inl (by simp [result])
  all_goals exact .inl rfl

theorem result_run_of_matched {i : Instr} (hi : ∀ sub, i = .prefixCb sub → sub ∈ extendedOpcodes) (s : State) :
    (result i s).run = s.run := by
  obtain hkept | ⟨sub, hsub, hun, -⟩ := result_run i s
  · exact hkept
  · exact absurd (hi sub hsub) hun

/-- The memory after an instruction is the memory before it with the writes of its access sequence
(`20_memory.md` R67). -/
theorem result_mem (i : Instr) (s : State) : (result i s).mem = applyAccesses s.mem (handlerAccesses i s) := by
  cases i
  case prefixCb sub => obtain ⟨-, h⟩ | ⟨-, h⟩ | ⟨-, h⟩ := result_prefixCb_cases sub s <;> rw [h] <;> rfl
  case jpNzR8 d => simp only [result]; split <;> rfl
  case ldHlDecA => simp [result, handlerAccesses, applyAccesses]
  all_goals rfl

/-- Every byte outside the addresses an instruction stores to reads as before (`20_memory.md` R59). -/
theorem bytesKept_result (i : Instr) (s : State) : BytesKept (storesOf i s) s (result i s) := by
  intro x hx
  rw [result_mem]
  cases i
  case callA16 | pushBc =>
    simp only [storesOf, List.mem_cons, List.not_mem_nil, or_false, not_or] at hx
    obtain ⟨hlow, hhigh⟩ := hx
    simp [handlerAccesses, pushAccesses, operand16Accesses, params, applyAccesses, Memory.read_write_of_ne, hlow, hhigh]
  case ldHlDecA | ldHlIndA | ldCIndA | ldhA8A =>
    simp only [storesOf, List.mem_singleton] at hx
    simp [handlerAccesses, operandAccess, applyAccesses, Memory.read_write_of_ne, hx]
  all_goals rfl

/-! ## The flags of F under a layout -/

section Flags
variable (p : Config.Params)

theorem flagBit_lt (fl : FlagName) : flagBit p fl < 8 := by
  cases fl
  case z => exact Nat.zero_lt_succ 7
  case n => exact p.flagN.isLt
  case h => exact p.flagH.isLt
  case c => exact p.flagC.isLt

/-- Under an admissible layout no two flags share a bit (`00_scope.md` R6). -/
theorem flagBit_injective {p : Config.Params} (hp : p.Admissible) : Function.Injective (flagBit p) := by
  obtain ⟨hn, hh, hc, hnh, hnc, hhc⟩ := hp
  simp only [ne_eq, Fin.ext_iff, Fin.val_zero] at hn hh hc hnh hnc hhc
  intro fl fl' heq
  cases fl <;> cases fl' <;> simp only [flagBit, reduceCtorEq] at heq ⊢ <;> omega

/-- A flag's write changes the one bit of F that holds the flag (`10_state.md` R25). -/
theorem getLsbD_writeFlag (f : Byte) (fl : FlagName) (v : Bool) (k : Nat) :
    (writeFlag p f fl v).getLsbD k = if k = flagBit p fl then v else f.getLsbD k := by
  have hlt := flagBit_lt p fl
  have hmask : (flagMask p fl).getLsbD k = decide (k = flagBit p fl) := by
    simp only [flagMask, BitVec.getLsbD_shiftLeft, BitVec.getLsbD_one]
    by_cases hk : k = flagBit p fl
    · simp [hk, hlt]
    · have : k < 8 → flagBit p fl ≤ k → k - flagBit p fl ≠ 0 := by omega
      simpa [hk] using this
  by_cases hk : k = flagBit p fl
  · subst hk; cases v <;> simp [writeFlag, hmask, hlt]
  · cases v
    · simpa [writeFlag, hmask, hk] using f.lt_of_getLsbD (i := k)
    · simp [writeFlag, hmask, hk]

@[simp] theorem readFlag_zero (fl : FlagName) : readFlag p 0x00#8 fl = false := by simp [readFlag]

/-- A flag's write is seen by its own read and by no other flag's (`10_state.md` R25). -/
theorem readFlag_writeFlag {p : Config.Params} (hp : p.Admissible) (f : Byte) (fl fl' : FlagName) (v : Bool) :
    readFlag p (writeFlag p f fl v) fl' = if fl' = fl then v else readFlag p f fl' := by
  simp only [readFlag, getLsbD_writeFlag, (flagBit_injective hp).eq_iff]

/-- No flag's bit is among the unused ones, so a flag's write leaves them (`10_state.md` R25). -/
theorem writeFlag_and_unusedMask (f : Byte) (fl : FlagName) (v : Bool) :
    writeFlag p f fl v &&& unusedMask p = f &&& unusedMask p := by
  have hunused : (unusedMask p).getLsbD (flagBit p fl) = false := by
    have hlt := flagBit_lt p fl
    cases fl <;> simp [unusedMask, flagMask, hlt]
  apply BitVec.eq_of_getLsbD_eq
  intro k _
  by_cases hk : k = flagBit p fl
  · subst hk; simp [hunused]
  · simp [getLsbD_writeFlag, hk]

/-- The literal bytes that BIT 7,H writes are Zero written into a cleared F, whatever the layout
(`45_extended_cb.md` R151). -/
theorem bit7Flags_eq_writeFlag (h : Byte) : bit7Flags h = writeFlag p 0x00#8 .z (!h.getLsbD 7) := by
  simp only [bit7Flags]
  cases h.getLsbD 7 <;> simp [writeFlag, flagMask, flagBit]

theorem bit7Flags_and_unusedMask (h : Byte) : bit7Flags h &&& unusedMask p = 0x00#8 := by
  rw [bit7Flags_eq_writeFlag p, writeFlag_and_unusedMask, BitVec.zero_and]

theorem rotateFlags_and_unusedMask (oldC newC : Byte) : rotateFlags p oldC newC &&& unusedMask p = 0x00#8 := by
  rw [rotateFlags, writeFlag_and_unusedMask, writeFlag_and_unusedMask, BitVec.zero_and]

end Flags

/-! ## What one step does -/

/-- The two causes of the fault, with the byte that each reports (`60_exceptions.md` R161, R162). -/
def FaultCause (kind : FaultKind) (opcode : Byte) (s : State) : Prop :=
  match kind with
  | .primary => opcode = opcodeAt s ∧ UnmatchedPrimary s
  | .extended => opcode = subOpcodeAt s ∧ UnmatchedExtended s

/-- A step with a next state runs the decoded instruction and keeps the block running, or takes the fault for one of the
two causes and changes the run state alone (`30_encoding.md` R81, `60_exceptions.md` R161, R168). -/
theorem step_cases {s t : State} (h : step s = .next t) :
    s.run = .running ∧
      ((∃ i rest, decode (fetchBytes s) = .ok (i, rest) ∧ t = result i s ∧ t.run = .running) ∨
        ∃ kind opcode, FaultCause kind opcode s ∧ t = haltedBy kind opcode s) := by
  obtain ⟨hrun, ⟨i, rest, hd, hexec⟩ | ⟨⟨e, hd⟩, rfl⟩⟩ := step_next h
  · refine ⟨hrun, ?_⟩
    obtain rfl := exec_next hexec
    obtain hkept | ⟨sub, rfl, -, hhalt⟩ := result_run i s
    · exact .inl ⟨i, rest, hd, rfl, hkept.trans hrun⟩
    · exact .inr ⟨.extended, sub, (fetched_prefixCb hd).symm, hhalt⟩
  · exact ⟨hrun, .inr ⟨.primary, _, ⟨rfl, not_mem_primaryOpcodes_of_decode_error hd⟩, rfl⟩⟩

/-! ## The invariant -/

theorem wf_applyAccesses {m : Memory} (accs : List Access) (h : m.wf) : (applyAccesses m accs).wf := by
  induction accs generalizing m with
  | nil => exact h
  | cons acc rest ih =>
    cases acc with
    | read a => exact ih h
    | write a v => exact ih (Memory.wf_write a v h)

/-- F after an instruction is F before it, or what one of the two writers of F leaves (`10_state.md` R26). -/
theorem result_f (i : Instr) (s : State) :
    (result i s).f = s.f ∨ (result i s).f = bit7Flags s.h ∨
      ∃ newC, (result i s).f = rotateFlags params s.c newC := by
  by_cases hf : .f ∈ writesOf i
  · right
    cases i
    case bit7H => exact .inl rfl
    case rlC => exact .inr ⟨_, rfl⟩
    case prefixCb sub =>
      obtain ⟨-, h⟩ | ⟨-, h⟩ | ⟨hsub, h⟩ := result_prefixCb_cases sub s
      · exact .inl (by rw [h]; rfl)
      · exact .inr ⟨_, by rw [h]; rfl⟩
      · obtain ⟨h7C, h11⟩ := not_mem_extendedOpcodes.mp hsub
        simp [writesOf, h7C, h11] at hf
    all_goals simp [writesOf] at hf
  · exact .inl (regsKept_result i s .f hf)

theorem unusedFlagsZero_result {i : Instr} {s : State} (h : UnusedFlagsZero s) : UnusedFlagsZero (result i s) := by
  obtain hf | hf | ⟨newC, hf⟩ := result_f i s <;> unfold UnusedFlagsZero <;> rw [hf]
  · exact h
  · exact bit7Flags_and_unusedMask params s.h
  · exact rotateFlags_and_unusedMask params s.c newC

/-- A running block records no report, so every report it holds is true. -/
theorem reportDescribes_of_running {s : State} (h : s.run = .running) : ReportDescribes s := by
  intro report hrep
  rw [h] at hrep
  cases hrep

/-- Taking the fault records a true report and leaves memory and F (`60_exceptions.md` R168). -/
theorem inv_haltedBy {kind : FaultKind} {opcode : Byte} {s : State} (hinv : s.Inv) (hcause : FaultCause kind opcode s) :
    (haltedBy kind opcode s).Inv := by
  refine ⟨hinv.memory, hinv.flags, fun report hrep => ?_⟩
  obtain rfl := RunState.haltedOnFault.inj hrep
  cases kind <;> exact ⟨rfl, rfl, hcause⟩

theorem inv_of_step {s t : State} (hinv : s.Inv) (h : step s = .next t) : t.Inv := by
  obtain ⟨-, ⟨i, rest, -, rfl, hrun⟩ | ⟨kind, opcode, hcause, rfl⟩⟩ := step_cases h
  · have hmem : (result i s).mem.wf := by
      rw [result_mem]
      exact wf_applyAccesses _ hinv.memory
    exact ⟨hmem, unusedFlagsZero_result hinv.flags, reportDescribes_of_running hrun⟩
  · exact inv_haltedBy hinv hcause

theorem inv_of_stepsTo {n : Nat} {s t : State} (hinv : s.Inv) (h : StepsTo n s t) : t.Inv := by
  induction n generalizing s with
  | zero => rw [h]; exact hinv
  | succ n ih =>
    obtain ⟨u, hstep, hrest⟩ := h
    exact ih (inv_of_step hinv hstep) hrest

/-! ## Runs are sequences of steps -/

theorem run_of_halted {s : State} {report : FaultReport} (n : Nat) (h : s.run = .haltedOnFault report) :
    run n s = .faulted s report := by
  cases n <;> simp [run, h]

theorem run_zero_of_running {s : State} (h : s.run = .running) : run 0 s = .completed s := by
  simp [run, h]

/-- A run with budget left takes the step and goes on from there (`70_reset_and_hazards.md` R196). -/
theorem run_succ_of_step {s t : State} (n : Nat) (h : step s = .next t) : run (n + 1) s = run n t := by
  obtain ⟨hrun, -⟩ := step_cases h
  simp [run, hrun, h]

/-- A running block always has a next state: no step of it is refused (`60_exceptions.md` R161). -/
theorem exists_step_of_running {s : State} (h : s.run = .running) : ∃ t, step s = .next t := by
  rw [step_of_running h]
  cases decode (fetchBytes s) with
  | ok r => exact ⟨_, exec_eq_result r.1 s⟩
  | error e => exact ⟨_, rfl⟩

/-- A run ends after `n` steps in a running block, or after at most `n` steps in a halted one (`70_reset_and_hazards.md`
R197). -/
theorem run_cases (n : Nat) (s : State) :
    (∃ t, run n s = .completed t ∧ StepsTo n s t ∧ t.run = .running) ∨
      ∃ k t report, k ≤ n ∧ run n s = .faulted t report ∧ StepsTo k s t ∧ t.run = .haltedOnFault report := by
  induction n generalizing s with
  | zero =>
    cases hrun : s.run with
    | running => exact .inl ⟨s, run_zero_of_running hrun, rfl, hrun⟩
    | haltedOnFault report => exact .inr ⟨0, s, report, le_rfl, run_of_halted 0 hrun, rfl, hrun⟩
  | succ n ih =>
    cases hrun : s.run with
    | haltedOnFault report => exact .inr ⟨0, s, report, Nat.zero_le _, run_of_halted _ hrun, rfl, hrun⟩
    | running =>
      obtain ⟨u, hstep⟩ := exists_step_of_running hrun
      rw [run_succ_of_step n hstep]
      obtain ⟨t, hr, hs, ht⟩ | ⟨k, t, report, hk, hr, hs, ht⟩ := ih u
      · exact .inl ⟨t, hr, ⟨u, hstep, hs⟩, ht⟩
      · exact .inr ⟨k + 1, t, report, Nat.succ_le_succ hk, hr, ⟨u, hstep, hs⟩, ht⟩

/-! ## The invariant along steps and runs: settled -/

/-- Settles O18, by what a step can do (`step_cases`): an instruction or the fault. -/
theorem everyStepKeepsTheInvariant : Obligations.EveryStepKeepsTheInvariant :=
  fun _ _ => inv_of_step

/-- Settles O21: a run is a sequence of steps (`run_cases`), and every step keeps the invariant. -/
theorem runsKeepTheInvariant : Obligations.RunsKeepTheInvariant := by
  intro n s hinv
  refine ⟨fun t hrun => ?_, fun t report hrun => ?_, fun t h => inv_of_stepsTo hinv h⟩
  · obtain ⟨t', hr, hs, -⟩ | ⟨k, t', report, -, hr, -⟩ := run_cases n s
    · obtain rfl : t' = t := by simpa [hr] using hrun
      exact inv_of_stepsTo hinv hs
    · simp [hr] at hrun
  · obtain ⟨t', hr, -⟩ | ⟨k, t', report', -, hr, hs, -⟩ := run_cases n s
    · simp [hr] at hrun
    · obtain ⟨rfl, -⟩ : t' = t ∧ report' = report := by simpa [hr] using hrun
      exact inv_of_stepsTo hinv hs

/-! ## Pairs and flags: settled -/

/-- Settles O8: a word is 256 times its high byte plus its low byte. -/
theorem pairsAreViewsOfTwoRegisters : Obligations.PairsAreViewsOfTwoRegisters := by
  have hread (s : State) (rr : Pair) :
      (getPair s rr).toNat = 256 * (getReg s rr.hi).toNat + (getReg s rr.lo).toNat := by
    rw [getPair, toNat_ofBytes, Nat.add_comm]
  refine ⟨fun s => ⟨hread s .bc, hread s .de, hread s .hl, hread s .af⟩, fun s v => ?_, fun s rr v => ?_⟩
  · rw [← highByte_eq_ofNat, ← lowByte_eq_ofNat]
    exact ⟨rfl, rfl, rfl, rfl⟩
  · simp [getPair, getReg_setPair, Pair.hi_ne_lo]

/-! ## PC and frames: settled -/

/-- Settles O44, one equation per instruction; a halting step is the fault, which leaves PC. -/
theorem programCounterAfterEveryInstruction : Obligations.ProgramCounterAfterEveryInstruction := by
  refine ⟨fun i s t h => ?_, fun s t h hrun => ?_⟩
  · obtain rfl := exec_next h
    cases i
    case jpNzR8 d =>
      simp only [result, add16_eq_add, ← add_two_add_displacement]
      split <;> rfl
    case prefixCb sub =>
      obtain ⟨rfl, h⟩ | ⟨rfl, h⟩ | ⟨hsub, h⟩ := result_prefixCb_cases sub s <;> rw [h]
      · simp [result, add16_eq_add]
      · simp [result, add16_eq_add]
      · simp [haltedBy, not_mem_extendedOpcodes.mp hsub]
    case callA16 v => simp [result, callWith, immediate16, add16_eq_add]
    all_goals simp [result, encode, add16_eq_add]
  · obtain ⟨-, ⟨i, rest, -, -, hkept⟩ | ⟨kind, opcode, -, rfl⟩⟩ := step_cases h
    · exact absurd hkept hrun
    · rfl

/-- Settles O42: a flag's write is one bit's write, and no other flag and no unused bit lies there. -/
theorem flagsAreSeparateBitsUnderEveryLayout : Obligations.FlagsAreSeparateBitsUnderEveryLayout :=
  fun p f fl fl' v hp => ⟨readFlag_writeFlag hp f fl fl' v, writeFlag_and_unusedMask p f fl v⟩

/-- Settles O43: both writers of F are flag writes into a cleared F. -/
theorem flagWritersUnderEveryLayout : Obligations.FlagWritersUnderEveryLayout := by
  intro p s hp
  refine ⟨?_, ?_⟩
  · have hread fl : readFlag p (bit7HOp s).f fl = if fl = .z then !s.h.getLsbD 7 else false := by
      rw [bit7HOp_f, bit7Flags_eq_writeFlag p, readFlag_writeFlag hp, readFlag_zero]
    simp only [hread]
    exact ⟨rfl, rfl, rfl, rfl, bit7Flags_and_unusedMask p s.h⟩
  · have hread fl : readFlag p (rlCOp p s).f fl =
        if fl = .z then decide ((rlCOp p s).c = 0x00#8) else if fl = .c then s.c.getLsbD 7 else false := by
      rw [rlCOp_f, rotateFlags, readFlag_writeFlag hp, readFlag_writeFlag hp, readFlag_zero, rlCOp_c]
    simp only [hread]
    exact ⟨rfl, rfl, rfl, rfl, rotateFlags_and_unusedMask p _ _⟩

/-- Settles O45: these rows list no store, not F and, but for LD SP,d16, not SP. -/
theorem registerInstructionsFrame : Obligations.RegisterInstructionsFrame := by
  intro i s t hi h
  obtain rfl := exec_next h
  obtain ⟨hnoFlag, hnoStore, hmatched, hsp⟩ : .f ∉ writesOf i ∧ storesOf i s = [] ∧
      (∀ sub, i = .prefixCb sub → sub ∈ extendedOpcodes) ∧ ((∀ v, i ≠ .ldSpD16 v) → spAfter i s = s.sp) := by
    cases i <;> simp [writesOf, storesOf, spAfter] at hi ⊢
  refine ⟨regsKept_result i s, regsKept_result i s .f hnoFlag, result_run_of_matched hmatched s, fun x => ?_,
    fun hne => (result_sp i s).trans (hsp hne)⟩
  exact bytesKept_result i s x (by simp [hnoStore])

/-- Settles O46: these rows list neither F nor SP, and one store. -/
theorem byteStoresFrame : Obligations.ByteStoresFrame := by
  intro i s t hi h
  obtain rfl := exec_next h
  obtain ⟨hnoFlag, hmatched, hsp⟩ : .f ∉ writesOf i ∧ (∀ sub, i = .prefixCb sub → sub ∈ extendedOpcodes) ∧
      spAfter i s = s.sp := by
    cases i <;> simp [writesOf, spAfter] at hi ⊢
  refine ⟨regsKept_result i s, regsKept_result i s .f hnoFlag, (result_sp i s).trans hsp,
    result_run_of_matched hmatched s, fun addr haddr x hx => ?_⟩
  exact bytesKept_result i s x (by simp [haddr, hx])

/-- Settles O47: the two rows write no 8-bit register and store at the new SP and above it. -/
theorem stackInstructionsFrame : Obligations.StackInstructionsFrame := by
  intro i s t hi h
  obtain rfl := exec_next h
  cases i
  case callA16 v =>
    exact ⟨regsKept_result (.callA16 v) s, result_run_of_matched (by simp) s, bytesKept_result (.callA16 v) s⟩
  case pushBc =>
    exact ⟨regsKept_result .pushBc s, result_run_of_matched (by simp) s, bytesKept_result .pushBc s⟩
  all_goals exact hi.elim

/-- Settles O48: none of the three writes memory, and the 0xCB row without a match is the fault. -/
theorem extendedInstructionsFrame : Obligations.ExtendedInstructionsFrame := by
  refine ⟨fun s t h => ?_, fun s t h => ?_, fun sub s t h => ?_⟩
  · obtain rfl := exec_next h
    exact ⟨regsKept_result .bit7H s, result_sp .bit7H s, result_mem .bit7H s, result_run_of_matched (by simp) s⟩
  · obtain rfl := exec_next h
    exact ⟨regsKept_result .rlC s, result_sp .rlC s, result_mem .rlC s, result_run_of_matched (by simp) s⟩
  · obtain rfl := exec_next h
    refine ⟨regsKept_result _ s, result_sp _ s, result_mem _ s, fun hsub => ?_, fun hsub => ?_⟩
    · obtain ⟨rfl, -⟩ | ⟨rfl, -⟩ | ⟨-, hres⟩ := result_prefixCb_cases sub s
      · exact absurd (by decide) hsub
      · exact absurd (by decide) hsub
      · rw [hres]; exact ⟨regsKept_haltedBy [] .extended sub s, rfl⟩
    · exact result_run_of_matched (fun sub' heq => Instr.prefixCb.inj heq ▸ hsub) s

/-! ## Which opcodes write a register -/

/-- The opcodes whose row of `10_state.md` R23 lists a register as written, given the byte at PC and the one after it. -/
def WrittenBy (r : Reg) (opcode sub : Byte) : Prop :=
  match r with
  | .a => opcode ∈ [0xAF#8, 0x3E#8, 0x1A#8]
  | .f => opcode = 0xCB#8 ∧ sub ∈ [0x7C#8, 0x11#8]
  | .b => opcode = 0x06#8
  | .c => opcode ∈ [0x0E#8, 0x0C#8, 0x4F#8] ∨ opcode = 0xCB#8 ∧ sub = 0x11#8
  | .d | .e => opcode = 0x11#8
  | .h | .l => opcode ∈ [0x32#8, 0x21#8]

/-- A fetched instruction that writes a register stands there under one of the register's opcodes. -/
theorem writtenBy_of_mem_writesOf {s : State} {i : Instr} {rest : List Byte} {r : Reg}
    (hd : decode (fetchBytes s) = .ok (i, rest)) (hr : r ∈ writesOf i) :
    WrittenBy r (opcodeAt s) (subOpcodeAt s) := by
  obtain ⟨hwf, hbytes⟩ := fetched_bytes hd
  cases i
  case prefixCb sub =>
    obtain ⟨h7C, h11⟩ := not_mem_extendedOpcodes.mp hwf
    simp [writesOf, h7C, h11] at hr
  all_goals
    simp only [encode, List.cons_append, List.nil_append, List.cons.injEq] at hbytes
    simp only [writesOf, List.mem_cons, List.not_mem_nil, or_false] at hr
  case bit7H =>
    obtain ⟨hop, hsub, -⟩ := hbytes
    subst hr
    simp [WrittenBy, ← hop, ← hsub]
  case rlC =>
    obtain ⟨hop, hsub, -⟩ := hbytes
    obtain rfl | rfl := hr <;> simp [WrittenBy, ← hop, ← hsub]
  case xorA | ldCD8 | ldAD8 | incC | ldADe | ldCA | ldBD8 => subst hr; simp [WrittenBy, ← hbytes.1]
  case ldHlDecA | ldHlD16 | ldDeD16 => obtain rfl | rfl := hr <;> simp [WrittenBy, ← hbytes.1]

theorem writtenBy_of_step {s t : State} (h : step s = .next t) {r : Reg} (hne : getReg t r ≠ getReg s r) :
    WrittenBy r (opcodeAt s) (subOpcodeAt s) := by
  obtain ⟨-, ⟨i, rest, hd, rfl, -⟩ | ⟨kind, opcode, -, rfl⟩⟩ := step_cases h
  · exact writtenBy_of_mem_writesOf hd (by_contra fun hr => hne (regsKept_result i s r hr))
  · exact absurd (regsKept_haltedBy [] kind opcode s r List.not_mem_nil) hne

theorem sp_writers_of_step {s t : State} (h : step s = .next t) (hne : t.sp ≠ s.sp) :
    opcodeAt s = 0x31#8 ∨ opcodeAt s ∈ [0xCD#8, 0xC5#8] ∧ t.sp = sub16 s.sp 2 := by
  obtain ⟨-, ⟨i, rest, hd, rfl, -⟩ | ⟨kind, opcode, -, rfl⟩⟩ := step_cases h
  · obtain ⟨-, hbytes⟩ := fetched_bytes hd
    rw [result_sp] at hne ⊢
    cases i
    case ldSpD16 v => exact .inl (List.cons.inj hbytes).1.symm
    case callA16 | pushBc =>
      right
      rw [← (List.cons.inj hbytes).1, sub16_two]
      exact ⟨by decide, rfl⟩
    all_goals exact absurd rfl hne
  · exact absurd rfl hne

/-- Settles O49: a changed register is in the fetched instruction's row, and the row fixes the opcode. -/
theorem registersChangeOnlyByTheirRows : Obligations.RegistersChangeOnlyByTheirRows := by
  intro s t h
  have hrow {r : Reg} (hne : getReg t r ≠ getReg s r) := writtenBy_of_step h hne
  exact ⟨hrow (r := .a), hrow (r := .b), hrow (r := .c),
    fun hne => hne.elim (hrow (r := .d)) (hrow (r := .e)), fun hne => hne.elim (hrow (r := .h)) (hrow (r := .l)),
    hrow (r := .f), sp_writers_of_step h⟩

/-! ## Noninterference -/

theorem eaHl_congr {s s' : State} (hh : s.h = s'.h) (hl : s.l = s'.l) : eaHl s = eaHl s' :=
  congrArg₂ ofBytes hl hh

theorem eaDe_congr {s s' : State} (hd : s.d = s'.d) (he : s.e = s'.e) : eaDe s = eaDe s' :=
  congrArg₂ ofBytes he hd

/-- The Memory Unit calls of an instruction depend on PC and its row's reads (`10_state.md` R23, `20_memory.md` R59). -/
theorem handlerAccesses_congr {i : Instr} {s s' : State} (hpc : s.pc = s'.pc) (hreads : AgreeOnReads s s' i) :
    handlerAccesses i s = handlerAccesses i s' := by
  cases i
  case ldHlDecA | ldHlIndA =>
    obtain ⟨ha, hh, hl⟩ := hreads
    simp [handlerAccesses, ha, eaHl_congr hh hl]
  case ldCIndA =>
    obtain ⟨ha, hc⟩ := hreads
    simp [handlerAccesses, eaHighC, getReg, ha, hc]
  case ldhA8A n => simp [handlerAccesses, operandAccess, hpc, show s.a = s'.a from hreads]
  case ldADe => simp [handlerAccesses, eaDe_congr hreads.1 hreads.2]
  case callA16 v =>
    simp [handlerAccesses, operand16Accesses, pushAccesses, eaPush, hpc, show s.sp = s'.sp from hreads]
  case pushBc =>
    obtain ⟨hb, hc, hsp⟩ := hreads
    simp [handlerAccesses, pushAccesses, eaPush, getPair, getReg, Pair.hi, Pair.lo, hb, hc, hsp]
  all_goals simp [handlerAccesses, operandAccess, operand16Accesses, hpc]

theorem result_mem_congr {i : Instr} {s s' : State} (hpc : s.pc = s'.pc) (hmem : s.mem = s'.mem)
    (hreads : AgreeOnReads s s' i) : (result i s).mem = (result i s').mem := by
  rw [result_mem, result_mem, hmem, handlerAccesses_congr hpc hreads]

theorem result_pc_congr {i : Instr} {s s' : State} (hpc : s.pc = s'.pc) (hmem : s.mem = s'.mem)
    (hreads : AgreeOnReads s s' i) : (result i s).pc = (result i s').pc := by
  have hafter (u : State) := programCounterAfterEveryInstruction.1 i u _ (exec_eq_result i u)
  rw [hafter s, hafter s', result_mem_congr hpc hmem hreads, hpc]
  cases i
  case jpNzR8 d => simp only [show getFlag s .z = getFlag s' .z from hreads]
  all_goals rfl

/-- SP depends on no read where the instruction does not write it, and on its row's reads where it does. -/
theorem spAfter_congr {i : Instr} {s s' : State} (hreads : AgreeOnReads s s' i)
    (hsp : (∃ v, i = .ldSpD16 v) ∨ i = .pushBc ∨ (∃ v, i = .callA16 v) ∨ s.sp = s'.sp) :
    spAfter i s = spAfter i s' := by
  cases i
  case ldSpD16 v => rfl
  case callA16 v => exact congrArg (· - 2#16) hreads
  case pushBc => exact congrArg (· - 2#16) hreads.2.2
  all_goals simpa [spAfter] using hsp

theorem written_bit7H_congr {s s' : State} (hreads : AgreeOnReads s s' .bit7H) {r : Reg} (hr : r ∈ writesOf .bit7H) :
    getReg (result .bit7H s) r = getReg (result .bit7H s') r := by
  obtain rfl := List.mem_singleton.mp hr
  exact congrArg bit7Flags hreads

theorem written_rlC_congr {s s' : State} (hreads : AgreeOnReads s s' .rlC) {r : Reg} (hr : r ∈ writesOf .rlC) :
    getReg (result .rlC s) r = getReg (result .rlC s') r := by
  obtain ⟨hc, hcy⟩ := hreads
  simp only [getFlag] at hcy
  simp only [writesOf, List.mem_cons, List.not_mem_nil, or_false] at hr
  obtain rfl | rfl := hr <;> simp [result, getReg, hc, hcy]

/-- The registers an instruction writes depend on its row's reads (`10_state.md` R23). -/
theorem written_congr {i : Instr} {s s' : State} (hmem : s.mem = s'.mem) (hreads : AgreeOnReads s s' i)
    (hmatched : ∀ sub, i = .prefixCb sub → sub ∈ extendedOpcodes) {r : Reg} (hr : r ∈ writesOf i) :
    getReg (result i s) r = getReg (result i s') r := by
  cases i
  case bit7H => exact written_bit7H_congr hreads hr
  case rlC => exact written_rlC_congr hreads hr
  case prefixCb sub =>
    obtain ⟨rfl, -⟩ | ⟨rfl, -⟩ | ⟨hun, -⟩ := result_prefixCb_cases sub s
    · exact written_bit7H_congr hreads hr
    · exact written_rlC_congr hreads hr
    · exact absurd (hmatched sub rfl) hun
  case ldSpD16 | jpNzR8 | ldCIndA | ldHlIndA | ldhA8A | callA16 | pushBc => cases hr
  all_goals simp only [writesOf, List.mem_cons, List.not_mem_nil, or_false] at hr
  case ldHlDecA =>
    obtain ⟨-, hh, hl⟩ := hreads
    obtain rfl | rfl := hr <;> simp [result, getReg, eaHl_congr hh hl]
  case ldHlD16 | ldDeD16 => obtain rfl | rfl := hr <;> simp [result, getReg]
  case ldADe => subst hr; simp [result, hmem, eaDe_congr hreads.1 hreads.2]
  case incC => subst hr; simp [result, show s.c = s'.c from hreads]
  case ldCA => subst hr; simp [result, show s.a = s'.a from hreads]
  all_goals subst hr; simp [result]

/-- Settles O51: memory, PC, SP and the written registers are each a function of the row's reads. -/
theorem resultsDependOnlyOnTheReads : Obligations.ResultsDependOnlyOnTheReads := by
  intro i s s' t t' hpc hmem hrun hreads hmatched h h'
  obtain rfl := exec_next h
  obtain rfl := exec_next h'
  refine ⟨result_pc_congr hpc hmem hreads, result_mem_congr hpc hmem hreads, ?_,
    fun r hr => written_congr hmem hreads hmatched hr, fun hsp => ?_⟩
  · rw [result_run_of_matched hmatched, result_run_of_matched hmatched, hrun]
  · rw [result_sp, result_sp, spAfter_congr hreads hsp]

end Sys2Proof.Machine

namespace Sys2Proof

/-- A byte outside the extended table keeps the prefix's own row (`30_encoding.md` R89, R94). -/
theorem decodeExtended_of_not_mem {sub : Byte} (h : sub ∉ extendedOpcodes) : decodeExtended sub = .prefixCb sub := by
  obtain ⟨h7C, h11⟩ := not_mem_extendedOpcodes.mp h
  unfold decodeExtended
  split
  · exact absurd rfl h7C
  · exact absurd rfl h11
  · rfl

/-- Every row of the two tables takes an instruction's own bytes and leaves what follows them (`30_encoding.md` R82). -/
theorem decode_encode_append {i : Instr} (hwf : i.WellFormed) (rest : List Byte) :
    decode (encode i ++ rest) = .ok (i, rest) := by
  cases i
  case prefixCb sub => simp [encode, decode, operand8, decodeExtended_of_not_mem hwf]
  case ldSpD16 | ldHlD16 | ldDeD16 | callA16 => simp [encode, decode, operand16]
  all_goals rfl

theorem wellFormed_of_encode_eq_singleton {i : Instr} {b : Byte} (h : encode i = [b]) : i.WellFormed := by
  cases i
  case prefixCb sub => cases h
  all_goals trivial

end Sys2Proof

namespace Sys2Proof.Machine

/-! ## Words in memory -/

theorem sub16_one (a : Word) : sub16 a 1 = a - 1#16 := by
  simp only [sub16]
  bv_omega

theorem toNat_lowByte (v : Word) : (lowByte v).toNat = v.toNat % 256 := by
  simp [lowByte_eq_ofNat]

theorem toNat_highByte (v : Word) : (highByte v).toNat = v.toNat / 256 := by
  have hlt : v.toNat / 256 < 256 := Nat.div_lt_of_lt_mul v.isLt
  rw [highByte_eq_ofNat, BitVec.toNat_ofNat, Nat.mod_eq_of_lt hlt]

/-- The byte above the new SP is the one just below the old SP, across 0xFFFF too (`44_stack.md` R140). -/
theorem eaPush_add_one (s : State) : eaPush s + 1#16 = s.sp - 1#16 := by
  simp only [eaPush]
  bv_omega

theorem read_push16_low (v : Word) (s : State) : (push16 params v s).mem.read (eaPush s) = lowByte v := by
  rw [read_push16, eaPush, if_neg (add_one_ne _).symm, if_pos rfl]

theorem read_push16_high (v : Word) (s : State) : (push16 params v s).mem.read (eaPush s + 1#16) = highByte v := by
  rw [read_push16, eaPush, if_pos rfl]

/-- `20_memory.md` R54 over the natural numbers. -/
theorem toNat_read16 (m : Memory) (a : Word) :
    (m.read16 a).toNat = (m.read a).toNat + 256 * (m.read (a + 1#16)).toNat :=
  toNat_ofBytes _ _

/-- `20_memory.md` R54 as the rule writes it, with a shift and an or. -/
theorem toNat_read16_eq_or (m : Memory) (a : Word) :
    (m.read16 a).toNat = ((m.read a).toNat ||| ((m.read (a + 1#16)).toNat <<< 8)) := by
  rw [toNat_read16, Nat.or_comm, ← Nat.shiftLeft_add_eq_or_of_lt (m.read a).isLt, Nat.shiftLeft_eq]
  omega

/-- Settles O7: (a) and (d) are the read after a write, (e) the two bytes of the push put together. -/
theorem memoryAndRegisterLaws : Obligations.MemoryAndRegisterLaws := by
  refine ⟨Memory.read_write_self, fun m a => ?_, pairsAreViewsOfTwoRegisters.2.2,
    fun m a b v => Memory.read_write_of_ne m v, fun s v => ?_⟩
  · rw [add16_eq_add]
    exact toNat_read16_eq_or m a
  · rw [push16_sp, Memory.read16, read_push16_low, read_push16_high, ofBytes_low_high]

/-- Settles O10: the second byte write leaves the first byte, for neighbouring addresses differ. -/
theorem wordsAreLittleEndian : Obligations.WordsAreLittleEndian := by
  refine ⟨fun m a v0 v1 => ?_, fun s v => ⟨?_, ?_⟩⟩
  · rw [add16_eq_add, toNat_read16, Memory.read_write_self, Memory.read_write_of_ne _ _ (add_one_ne a).symm,
      Memory.read_write_self]
  · rw [sub16_two, ← eaPush, read_push16_low]
    exact toNat_lowByte v
  · rw [sub16_one, ← eaPush_add_one, read_push16_high]
    exact toNat_highByte v

/-! ## The canonical form: equal contents, equal data -/

/-- In a memory of rising addresses, the cells are the nonzero bytes that the memory holds. -/
theorem Memory.mem_iff_lookup {m : Memory} (h : m.Pairwise fun x y => x.1 < y.1) {k : Nat} {v : Byte}
    (hv : v ≠ 0x00#8) : (k, v) ∈ m ↔ m.lookup k = v := by
  induction m with
  | nil => simp [Memory.lookup, hv.symm]
  | cons x rest ih =>
    obtain ⟨hx, hrest⟩ := List.pairwise_cons.mp h
    by_cases hk : x.1 = k
    · have hnot : (k, v) ∉ rest := fun hmem => absurd (hx _ hmem) (by simp [hk])
      simp [Memory.lookup, hk, hnot, Prod.ext_iff, eq_comm]
    · simp [Memory.lookup, hk, ih hrest, Prod.ext_iff, Ne.symm hk]

/-- A canonical memory's cells are the nonzero bytes that reads find. -/
theorem Memory.mem_iff_read {m : Memory} (h : m.wf) (cell : Host.Cell) :
    cell ∈ m ↔ ∃ a : Word, cell = (a.toNat, m.read a) ∧ m.read a ≠ 0x00#8 := by
  obtain ⟨hrising, hcells⟩ := h
  constructor
  · intro hmem
    obtain ⟨hlt, hne⟩ := hcells cell hmem
    have hk : (BitVec.ofNat 16 cell.1).toNat = cell.1 := Nat.mod_eq_of_lt hlt
    have hread : m.read (BitVec.ofNat 16 cell.1) = cell.2 := by
      rw [Memory.read, hk]
      exact (Memory.mem_iff_lookup hrising hne).mp hmem
    exact ⟨BitVec.ofNat 16 cell.1, by rw [hk, hread], hread ▸ hne⟩
  · rintro ⟨a, rfl, hne⟩
    exact (Memory.mem_iff_lookup hrising hne).mpr rfl

/-- Settles O9: the reads fix the cells (`Memory.mem_iff_read`), and the rising addresses their order. -/
theorem memoriesThatReadTheSameAreEqual : Obligations.MemoriesThatReadTheSameAreEqual := by
  intro m m' h h' hread
  have hirrefl : Std.Irrefl fun x y : Host.Cell => x.1 < y.1 := ⟨fun x => lt_irrefl x.1⟩
  have hantisymm : Std.Antisymm fun x y : Host.Cell => x.1 < y.1 := ⟨fun _ _ hlt hgt => absurd hgt (lt_asymm hlt)⟩
  refine h.1.eq_of_mem_iff h'.1 fun cell => ?_
  simp only [Memory.mem_iff_read h, Memory.mem_iff_read h', hread]

/-! ## The bytes a step changes -/

/-- No address of the high page is below 0xFF00 (`20_memory.md` R58). -/
theorem le_toNat_highPageAddr (n : Byte) : 0xFF00 ≤ (highPageAddr n).toNat := by
  have hn := n.isLt
  simp only [highPageAddr, Config.highPage]
  bv_omega

/-- Settles O50: a changed byte is one the fetched instruction stores to, and the row fixes opcode and address. -/
theorem bytesChangeOnlyByTheirRows : Obligations.BytesChangeOnlyByTheirRows := by
  intro s t x h hne
  obtain ⟨-, ⟨i, rest, hd, rfl, -⟩ | ⟨kind, opcode, -, rfl⟩⟩ := step_cases h
  · have hx : x ∈ storesOf i s := by_contra fun hx => hne (bytesKept_result i s x hx)
    obtain ⟨-, hbytes⟩ := fetched_bytes hd
    cases i
    case ldHlDecA | ldHlIndA =>
      obtain rfl := List.mem_singleton.mp hx
      exact .inl ⟨by simp [← (List.cons.inj hbytes).1], rfl⟩
    case ldCIndA | ldhA8A =>
      obtain rfl := List.mem_singleton.mp hx
      exact .inr (.inl ⟨by simp [← (List.cons.inj hbytes).1], le_toNat_highPageAddr _⟩)
    case callA16 | pushBc =>
      rw [storesOf, eaPush_add_one, eaPush, ← sub16_two, ← sub16_one] at hx
      exact .inr (.inr ⟨by simp [← (List.cons.inj hbytes).1], by simpa using hx⟩)
    all_goals cases hx
  · exact absurd rfl hne

/-- Settles O52: the opcode fetch writes nothing, the handler's writes make the memory (`result_mem`), and the fault
leaves it. -/
theorem memoryChangesAreTheWritesOfTheAccessSequence : Obligations.MemoryChangesAreTheWritesOfTheAccessSequence := by
  intro s t h
  obtain ⟨hrun, ⟨i, rest, hd, hexec⟩ | ⟨⟨e, hd⟩, rfl⟩⟩ := step_next h
  · obtain rfl := exec_next hexec
    simp only [accesses, hrun, hd, applyAccesses]
    exact result_mem i s
  · simp only [accesses, hrun, hd, applyAccesses]

/-! ## Stores to instruction bytes -/

/-- A running block runs the instruction whose bytes begin its fetch (`30_encoding.md` R81). -/
theorem step_eq_result {s : State} {i : Instr} {rest : List Byte} (hrun : s.run = .running) (hwf : i.WellFormed)
    (hfetch : fetchBytes s = encode i ++ rest) : step s = .next (result i s) := by
  rw [step_of_running hrun, hfetch, decode_encode_append hwf]
  exact exec_eq_result i s

/-- A running block whose byte at PC is all of an instruction runs it. -/
theorem step_of_opcodeAt {s : State} {i : Instr} (hrun : s.run = .running) (h : encode i = [opcodeAt s]) :
    step s = .next (result i s) :=
  step_eq_result hrun (wellFormed_of_encode_eq_singleton h) (by rw [h]; rfl)

/-- Settles O53: the store leaves A where the next step fetches. -/
theorem storeToTheNextInstructionIsFetched : Obligations.StoreToTheNextInstructionIsFetched := by
  intro s i hrun hop hhl henc
  have hfetched : opcodeAt (result .ldHlIndA s) = s.a := by
    rw [add16_eq_add, ← eaHl] at hhl
    simp [result, opcodeAt, hhl]
  refine ⟨result .ldHlIndA s, step_of_opcodeAt hrun (by rw [hop]; rfl), ?_⟩
  rw [exec_eq_result]
  exact step_of_opcodeAt hrun (by rw [hfetched, henc])

/-- Settles O54: the instruction was fetched before its store, and the store's address is HL before the decrement. -/
theorem storeToOwnOpcodeTakesEffectLater : Obligations.StoreToOwnOpcodeTakesEffectLater := by
  intro s hrun hop hhl
  have hstored : (result .ldHlDecA s).mem.read s.pc = s.a := by
    rw [← eaHl] at hhl
    simp [result, hhl]
  refine ⟨result .ldHlDecA s, step_of_opcodeAt hrun (by rw [hop]; rfl), hstored, ?_, ?_, congrArg some hstored⟩
  · simp [result, add16_eq_add]
  · rw [sub16_one, ← hhl, ← eaHl]
    exact pairsAreViewsOfTwoRegisters.2.2 (storeByte s (eaHl s) s.a) .hl (eaHl s - 1#16)

end Sys2Proof.Machine

namespace Sys2Proof

/-! ## The round trip, and the first bytes without a row -/

/-- Settles O1: `decode_encode_append`, the decoder's rows read forwards. -/
theorem decodeOfEncodeIsTheInstruction : Obligations.DecodeOfEncodeIsTheInstruction :=
  fun _ rest hwf => decode_encode_append hwf rest

/-- Settles O2: `wellFormed_and_encode_of_decode`, the decoder's rows read backwards. -/
theorem decodedBytesAreTheEncoding : Obligations.DecodedBytesAreTheEncoding :=
  fun _ _ _ hd => wellFormed_and_encode_of_decode hd

theorem operand8_ne_unmatched (opcode b : Byte) (k : Byte → Instr) (bytes : List Byte) :
    operand8 opcode k bytes ≠ .error (.unmatchedPrimary b) := by
  unfold operand8
  split <;> simp

theorem operand16_ne_unmatched (opcode b : Byte) (k : Word → Instr) (bytes : List Byte) :
    operand16 opcode k bytes ≠ .error (.unmatchedPrimary b) := by
  unfold operand16
  split <;> simp

/-- A row's missing operand bytes are another error than a missing row (`30_encoding.md` R88). -/
theorem decode_eq_unmatched_iff (b : Byte) (rest : List Byte) :
    decode (b :: rest) = .error (.unmatchedPrimary b) ↔ b ∉ Machine.primaryOpcodes := by
  simp only [decode]
  -- The cases are the decoder's rows in order, the last the byte without a row.
  split
  case h_19 =>
    refine iff_of_true rfl fun hmem => ?_
    fin_cases hmem <;> contradiction
  case h_1 | h_4 | h_13 | h_15 => exact iff_of_false (operand16_ne_unmatched _ _ _ _) (by decide)
  case h_5 | h_6 | h_7 | h_8 | h_12 | h_17 => exact iff_of_false (operand8_ne_unmatched _ _ _ _) (by decide)
  all_goals exact iff_of_false nofun (by decide)

/-- The keys that have a row are the table in another order, so a table of distinct keys leaves
all the other bytes without a row (`30_encoding.md` R88, R89). -/
theorem length_filter_not_mem {table : List Byte} (hnodup : table.Nodup) :
    ((List.range 256).filter fun n => BitVec.ofNat 8 n ∉ table).length = 256 - table.length := by
  have hperm : (table.map BitVec.toNat).Perm ((List.range 256).filter fun n => BitVec.ofNat 8 n ∈ table) := by
    refine (List.perm_ext_iff_of_nodup (hnodup.map BitVec.toNat_injective) (List.nodup_range.filter _)).mpr fun n => ?_
    grind [BitVec.toNat_ofNat, BitVec.isLt]
  grind [List.length_eq_length_filter_add, hperm.length_eq]

/-! ## The length of an instruction -/

theorem length_encode (i : Instr) : (encode i).length = i.byteLength := by
  cases i <;> rfl

theorem byteLength_le_three (i : Instr) : i.byteLength ≤ 3 := by
  cases i <;> simp [Instr.byteLength]

/-- `30_encoding.md` R85: each opcode byte is in the list of its instruction's length. -/
theorem opcode_listed_by_byteLength {i : Instr} {b : Byte} {bytes rest : List Byte}
    (h : encode i ++ rest = b :: bytes) :
    b ∈ [0x32#8, 0xAF#8, 0xE2#8, 0x0C#8, 0x77#8, 0x1A#8, 0x4F#8, 0xC5#8] ∧ i.byteLength = 1 ∨
    b ∈ [0x0E#8, 0x3E#8, 0x06#8, 0xE0#8, 0x20#8, 0xCB#8] ∧ i.byteLength = 2 ∨
    b ∈ [0x31#8, 0x21#8, 0x11#8, 0xCD#8] ∧ i.byteLength = 3 := by
  cases i <;> obtain rfl := (List.cons.inj h).1
  case ldSpD16 | ldHlD16 | ldDeD16 | callA16 => exact .inr (.inr ⟨by decide, rfl⟩)
  case prefixCb | jpNzR8 | ldCD8 | ldAD8 | ldhA8A | ldBD8 | bit7H | rlC => exact .inr (.inl ⟨by decide, rfl⟩)
  all_goals exact .inl ⟨by decide, rfl⟩

/-- Settles O5: the decoder evaluated on each string. -/
theorem tableBytesDecodeToTheirInstructions : Obligations.TableBytesDecodeToTheirInstructions :=
  ⟨rfl, rfl, rfl, rfl, rfl, rfl, rfl, rfl, rfl, rfl, rfl⟩

end Sys2Proof

namespace Sys2Proof.Machine

/-! ## The step by the bytes at PC -/

/-- The fault of a first byte without a row (`30_encoding.md` R88, `60_exceptions.md` R168). -/
theorem step_of_unmatchedPrimary {s : State} (hrun : s.run = .running) (h : UnmatchedPrimary s) :
    step s = .next (haltedBy .primary (opcodeAt s) s) := by
  have hd : decode (fetchBytes s) = .error (.unmatchedPrimary (opcodeAt s)) := (decode_eq_unmatched_iff _ _).mpr h
  rw [step_of_running hrun, hd]
  rfl

theorem result_prefixCb_of_not_mem {sub : Byte} (h : sub ∉ extendedOpcodes) (s : State) :
    result (.prefixCb sub) s = haltedBy .extended sub s := by
  obtain ⟨h7C, h11⟩ := not_mem_extendedOpcodes.mp h
  rw [result, if_neg h7C, if_neg h11]

/-- The fault of a byte without a row after 0xCB (`30_encoding.md` R89, `60_exceptions.md` R168). -/
theorem step_of_unmatchedExtended {s : State} (hrun : s.run = .running) (h : UnmatchedExtended s) :
    step s = .next (haltedBy .extended (subOpcodeAt s) s) := by
  obtain ⟨hop, hsub⟩ := h
  have hfetch : fetchBytes s = encode (.prefixCb (subOpcodeAt s)) ++ [s.mem.read (s.pc + 2#16)] := by
    rw [encode, ← hop]
    rfl
  rw [step_eq_result hrun hsub hfetch, result_prefixCb_of_not_mem hsub]

theorem getElem_fetchBytes (s : State) (k : Nat) (hk : k < (fetchBytes s).length) :
    (fetchBytes s)[k] = s.mem.read (s.pc + BitVec.ofNat 16 k) := by
  match k, hk with
  | 0, _ => simp [fetchBytes]
  | 1, _ => rfl
  | 2, _ => rfl

/-- The bytes at PC are fetched, for no instruction is longer than the fetch (`30_encoding.md` R80, R85). -/
theorem encode_prefix_fetchBytes {i : Instr} {s : State} (h : HoldsAtPc i s) : encode i <+: fetchBytes s := by
  have hlen : (encode i).length ≤ (fetchBytes s).length := (length_encode i).trans_le (byteLength_le_three i)
  refine List.prefix_iff_getElem.mpr ⟨hlen, fun k hk => ?_⟩
  rw [getElem_fetchBytes, h k hk]

/-- Settles O3: the 18 rows leave 238 bytes without one, and on each of them the decoder's error is the step's fault. -/
theorem unmatchedPrimaryOpcodesFault : Obligations.UnmatchedPrimaryOpcodesFault :=
  ⟨decode_eq_unmatched_iff, length_filter_not_mem (by decide), by decide, by decide,
    fun _ => step_of_unmatchedPrimary⟩

/-- Settles O4: the two bytes that are excepted are the extended table. -/
theorem unmatchedExtendedOpcodesFault : Obligations.UnmatchedExtendedOpcodesFault := by
  constructor
  · simp only [← not_mem_extendedOpcodes]
    exact length_filter_not_mem (by decide)
  · intro s hrun hop h7C h11
    exact step_of_unmatchedExtended hrun ⟨hop, not_mem_extendedOpcodes.mpr ⟨h7C, h11⟩⟩

/-- Settles O6: decoded bytes are an instruction's encoding and a rest, so both the count and the first byte are read
off the encoding. -/
theorem lengthIsToldByTheOpcodeByte : Obligations.LengthIsToldByTheOpcodeByte := by
  refine ⟨fun b bytes i rest hd => ?_, fun s hrun hun => ⟨_, step_of_unmatchedPrimary hrun hun, nofun, rfl⟩⟩
  obtain ⟨-, henc⟩ := wellFormed_and_encode_of_decode hd
  refine ⟨?_, opcode_listed_by_byteLength henc⟩
  calc bytes.length + 1 = (encode i ++ rest).length := by rw [henc, List.length_cons]
    _ = rest.length + i.byteLength := by rw [List.length_append, length_encode, Nat.add_comm]

/-- Settles O14: an instruction's bytes at PC begin the fetch, which then decodes to it. -/
theorem stepRunsTheDecodedInstruction : Obligations.StepRunsTheDecodedInstruction := by
  refine ⟨fun s i rest hrun hd => ?_, fun s i hrun hwf hbytes => ?_, fun s => step_of_unmatchedPrimary⟩
  · rw [step_of_running hrun, hd]
  · obtain ⟨rest, hfetch⟩ := encode_prefix_fetchBytes hbytes
    rw [step_eq_result hrun hwf hfetch.symm, exec_eq_result]

end Sys2Proof.Machine

namespace Sys2Proof.Machine

/-! ## The step by the row of the instruction's operand -/

/-- A running block's Memory Unit calls are the fetch of the opcode and then those of the instruction whose bytes begin
its fetch (`20_memory.md` R59). -/
theorem accesses_eq {s : State} {i : Instr} {rest : List Byte} (hrun : s.run = .running) (hwf : i.WellFormed)
    (hfetch : fetchBytes s = encode i ++ rest) : accesses s = .read s.pc :: handlerAccesses i s := by
  simp only [accesses, hrun, hfetch, decode_encode_append hwf]

theorem accesses_of_opcodeAt {s : State} {i : Instr} (hrun : s.run = .running) (h : encode i = [opcodeAt s]) :
    accesses s = .read s.pc :: handlerAccesses i s :=
  accesses_eq hrun (wellFormed_of_encode_eq_singleton h) (by rw [h]; rfl)

/-- The fetch of a row with a byte operand: the operand is the byte at PC + 1 (`30_encoding.md` R82, R83). -/
theorem fetchBytes_eq_of_byte {k : Byte → Instr} {opcode : Byte} (henc : ∀ n, encode (k n) = [opcode, n]) {s : State}
    (hop : opcodeAt s = opcode) : fetchBytes s = encode (k (subOpcodeAt s)) ++ [s.mem.read (s.pc + 2#16)] := by
  rw [henc, ← hop]
  rfl

theorem immediate16_eq_read16 (s : State) : immediate16 s = s.mem.read16 (add16 s.pc 1) := by
  rw [add16_eq_add]; rfl

theorem lowByte_immediate16 (s : State) : lowByte (immediate16 s) = s.mem.read (add16 s.pc 1) := by
  simp [immediate16_eq_read16, Memory.read16]

theorem highByte_immediate16 (s : State) : highByte (immediate16 s) = s.mem.read (add16 s.pc 2) := by
  have hpc : s.pc + 1#16 + 1#16 = s.pc + 2#16 := BitVec.add_assoc s.pc 1#16 1#16
  simp [immediate16, Memory.read16, hpc, add16_eq_add]

/-- The fetch of a row with a word operand: the operand is the word at PC + 1, low byte first (`30_encoding.md` R82,
R83). -/
theorem fetchBytes_eq_of_word {k : Word → Instr} {opcode : Byte}
    (henc : ∀ v, encode (k v) = [opcode, lowByte v, highByte v]) {s : State} (hop : opcodeAt s = opcode) :
    fetchBytes s = encode (k (immediate16 s)) ++ [] := by
  rw [henc, lowByte_immediate16, highByte_immediate16, add16_eq_add, add16_eq_add, ← hop]
  rfl

/-- A running block at the opcode of a row with a word immediate and no other access runs it on the word at PC + 1. -/
theorem step_wordImmediate {k : Word → Instr} {opcode : Byte} (hwf : ∀ v, (k v).WellFormed)
    (henc : ∀ v, encode (k v) = [opcode, lowByte v, highByte v])
    (hacc : ∀ v s, handlerAccesses (k v) s = operand16Accesses s) {s : State} (hrun : s.run = .running)
    (hop : opcodeAt s = opcode) :
    step s = .next (result (k (immediate16 s)) s) ∧
      accesses s = [.read s.pc, .read (add16 s.pc 1), .read (add16 s.pc 2)] := by
  have hfetch := fetchBytes_eq_of_word henc hop
  refine ⟨step_eq_result hrun (hwf _) hfetch, ?_⟩
  rw [accesses_eq hrun (hwf _) hfetch, hacc, add16_eq_add, add16_eq_add]
  rfl

/-- A running block at the opcode of a row with a byte immediate and no other access runs it on the byte at PC + 1. -/
theorem step_byteImmediate {k : Byte → Instr} {opcode : Byte} (hwf : ∀ n, (k n).WellFormed)
    (henc : ∀ n, encode (k n) = [opcode, n]) (hacc : ∀ n s, handlerAccesses (k n) s = operandAccess s) {s : State}
    (hrun : s.run = .running) (hop : opcodeAt s = opcode) :
    step s = .next (result (k (s.mem.read (add16 s.pc 1))) s) ∧ accesses s = [.read s.pc, .read (add16 s.pc 1)] := by
  have hfetch := fetchBytes_eq_of_byte henc hop
  rw [add16_eq_add]
  refine ⟨step_eq_result hrun (hwf _) hfetch, ?_⟩
  rw [accesses_eq hrun (hwf _) hfetch, hacc]
  rfl

/-! ## The state after a load of an immediate or a register -/

theorem result_ldSpD16 (v : Word) (s : State) :
    result (.ldSpD16 v) s = { s with sp := v, pc := add16 s.pc 3 } := by
  rw [add16_eq_add]; rfl

theorem result_ldHlD16 (v : Word) (s : State) :
    result (.ldHlD16 v) s = { s with h := highByte v, l := lowByte v, pc := add16 s.pc 3 } := by
  rw [add16_eq_add]; rfl

theorem result_ldDeD16 (v : Word) (s : State) :
    result (.ldDeD16 v) s = { s with d := highByte v, e := lowByte v, pc := add16 s.pc 3 } := by
  rw [add16_eq_add]; rfl

theorem result_ldCD8 (n : Byte) (s : State) : result (.ldCD8 n) s = { s with c := n, pc := add16 s.pc 2 } := by
  rw [add16_eq_add]; rfl

theorem result_ldAD8 (n : Byte) (s : State) : result (.ldAD8 n) s = { s with a := n, pc := add16 s.pc 2 } := by
  rw [add16_eq_add]; rfl

theorem result_ldBD8 (n : Byte) (s : State) : result (.ldBD8 n) s = { s with b := n, pc := add16 s.pc 2 } := by
  rw [add16_eq_add]; rfl

theorem result_ldCA (s : State) : result .ldCA s = { s with c := s.a, pc := add16 s.pc 1 } := by
  rw [add16_eq_add]; rfl

/-! ## Loads of immediates and registers: settled -/

/-- Settles O24: the operand is the word at PC + 1, and its halves are the bytes at PC + 2 and PC + 1. -/
theorem wordImmediateLoads : Obligations.WordImmediateLoads := by
  simp only [Obligations.WordImmediateLoads, ← immediate16_eq_read16, ← lowByte_immediate16, ← highByte_immediate16,
    ← lowByte_eq_ofNat, ← highByte_eq_ofNat, ← result_ldSpD16, ← result_ldHlD16, ← result_ldDeD16]
  exact ⟨fun v => exec_eq_result (.ldSpD16 v), fun v => exec_eq_result (.ldHlD16 v), fun v => exec_eq_result (.ldDeD16 v),
    fun _ => step_wordImmediate (fun _ => trivial) (fun _ => rfl) (fun _ _ => rfl),
    fun _ => step_wordImmediate (fun _ => trivial) (fun _ => rfl) (fun _ _ => rfl),
    fun _ => step_wordImmediate (fun _ => trivial) (fun _ => rfl) (fun _ _ => rfl)⟩

/-- Settles O25: the three rows differ in the register alone (`step_byteImmediate`). -/
theorem byteImmediateLoads : Obligations.ByteImmediateLoads := by
  simp only [Obligations.ByteImmediateLoads, ← result_ldCD8, ← result_ldAD8, ← result_ldBD8]
  exact ⟨fun n => exec_eq_result (.ldCD8 n), fun n => exec_eq_result (.ldAD8 n), fun n => exec_eq_result (.ldBD8 n),
    fun _ => step_byteImmediate (fun _ => trivial) (fun _ => rfl) (fun _ _ => rfl),
    fun _ => step_byteImmediate (fun _ => trivial) (fun _ => rfl) (fun _ _ => rfl),
    fun _ => step_byteImmediate (fun _ => trivial) (fun _ => rfl) (fun _ _ => rfl)⟩

/-- Settles O26: the byte at PC is the whole instruction, so its fetch is the only access. -/
theorem loadCFromA : Obligations.LoadCFromA := by
  simp only [Obligations.LoadCFromA, ← result_ldCA]
  refine ⟨exec_eq_result .ldCA, fun s hrun hop => ?_⟩
  have henc : encode .ldCA = [opcodeAt s] := by rw [hop]; rfl
  exact ⟨step_of_opcodeAt hrun henc, accesses_of_opcodeAt hrun henc⟩

end Sys2Proof.Machine

namespace Sys2Proof.Machine

/-! ## The addresses of loads and stores -/

theorem toNat_highPageAddr (n : Byte) : (highPageAddr n).toNat = 0xFF00 + n.toNat := by
  have hn := n.isLt
  simp only [highPageAddr, Config.highPage]
  bv_omega

theorem eq_highPageAddr_iff (x : Word) (n : Byte) : x = highPageAddr n ↔ x.toNat = 0xFF00 + n.toNat := by
  rw [← toNat_highPageAddr, BitVec.toNat_inj]

theorem highPageAddr_eq_ofNat (n : Byte) : highPageAddr n = BitVec.ofNat 16 (0xFF00 + n.toNat) := by
  rw [← toNat_highPageAddr, BitVec.ofNat_toNat, BitVec.setWidth_eq]

/-- A pair over the natural numbers (`10_state.md` R22). -/
theorem getPair_eq_ofNat (s : State) (p : Pair) :
    getPair s p = BitVec.ofNat 16 (256 * (getReg s p.hi).toNat + (getReg s p.lo).toNat) := by
  rw [Nat.add_comm, ← toNat_ofBytes, BitVec.ofNat_toNat, BitVec.setWidth_eq, getPair]

/-! ## The state after a load or store -/

theorem result_ldHlDecA (s : State) :
    result .ldHlDecA s =
      { s with
        h := highByte (eaHl s - 1#16), l := lowByte (eaHl s - 1#16), mem := s.mem.write (eaHl s) s.a
        pc := add16 s.pc 1 } := by
  rw [add16_eq_add]; rfl

theorem result_ldHlIndA (s : State) :
    result .ldHlIndA s = { s with mem := s.mem.write (eaHl s) s.a, pc := add16 s.pc 1 } := by
  rw [add16_eq_add]; rfl

theorem result_ldCIndA (s : State) :
    result .ldCIndA s = { s with mem := s.mem.write (highPageAddr s.c) s.a, pc := add16 s.pc 1 } := by
  rw [add16_eq_add]; rfl

theorem result_ldhA8A (n : Byte) (s : State) :
    result (.ldhA8A n) s = { s with mem := s.mem.write (highPageAddr n) s.a, pc := add16 s.pc 2 } := by
  rw [add16_eq_add]; rfl

theorem result_ldADe (s : State) :
    result .ldADe s = { s with a := s.mem.read (eaDe s), pc := add16 s.pc 1 } := by
  rw [add16_eq_add]; rfl

/-- `41_load_store_memory.md` R110: the pair HL after the store is one below the store's address (D3). -/
theorem getPair_hl_result_ldHlDecA (s : State) : getPair (result .ldHlDecA s) .hl = sub16 (eaHl s) 1 := by
  rw [result_ldHlDecA, sub16_one]
  exact ofBytes_low_high (eaHl s - 1#16)

/-- A store in the high page, read over the natural numbers (`41_load_store_memory.md` R111, R113). -/
theorem read_write_highPageAddr (m : Memory) (n v : Byte) (x : Word) :
    (m.write (highPageAddr n) v).read x = if x.toNat = 0xFF00 + n.toNat then v else m.read x := by
  simp only [Memory.read_write, eq_highPageAddr_iff]

/-! ## The step of a load or store -/

/-- A running block at the opcode of a one-byte row runs it, and the handler's calls follow the fetch
(`20_memory.md` R59). -/
theorem step_oneByte {i : Instr} {opcode : Byte} (henc : encode i = [opcode]) {s : State} (hrun : s.run = .running)
    (hop : opcodeAt s = opcode) : step s = exec i s ∧ accesses s = .read s.pc :: handlerAccesses i s := by
  subst hop
  exact ⟨(step_of_opcodeAt hrun henc).trans (exec_eq_result i s).symm, accesses_of_opcodeAt hrun henc⟩

/-- `41_load_store_memory.md` R113: the operand byte is fetched before the store, and is the store's offset. -/
theorem step_ldhA8A {s : State} (hrun : s.run = .running) (hop : opcodeAt s = 0xE0#8) :
    step s = exec (.ldhA8A (s.mem.read (add16 s.pc 1))) s ∧
      accesses s =
        [.read s.pc, .read (add16 s.pc 1), .write (highPageAddr (s.mem.read (add16 s.pc 1))) s.a] := by
  have hfetch := fetchBytes_eq_of_byte (k := .ldhA8A) (fun _ => rfl) hop
  rw [add16_eq_add, step_eq_result hrun trivial hfetch, exec_eq_result]
  exact ⟨rfl, accesses_eq hrun trivial hfetch⟩

/-! ## Loads and stores to memory: settled -/

/-- Settles O27: the store's address is HL before the decrement (`result_ldHlDecA`). -/
theorem storeThroughHlDecrements : Obligations.StoreThroughHlDecrements := by
  refine fun s => ⟨⟨result .ldHlDecA s, exec_eq_result .ldHlDecA s, fun x => Memory.read_write s.mem (eaHl s) x s.a,
    getPair_hl_result_ldHlDecA s, ?_⟩, step_oneByte rfl⟩
  rw [result_ldHlDecA]

/-- Settles O28: the one write of memory is A's at HL, which stays (`result_ldHlIndA`). -/
theorem storeThroughHl : Obligations.StoreThroughHl := by
  refine fun s => ⟨⟨result .ldHlIndA s, exec_eq_result .ldHlIndA s, fun x => Memory.read_write s.mem (eaHl s) x s.a,
    ?_⟩, step_oneByte rfl⟩
  rw [result_ldHlIndA]

/-- Settles O29: both rows store at `highPageAddr` of a byte, which is 0xFF00 plus that byte without a wrap
(`toNat_highPageAddr`). -/
theorem highPageStores : Obligations.HighPageStores := by
  intro s
  simp only [← highPageAddr_eq_ofNat]
  refine ⟨⟨result .ldCIndA s, exec_eq_result .ldCIndA s, read_write_highPageAddr s.mem s.c s.a, ?_⟩,
    fun n => ⟨result (.ldhA8A n) s, exec_eq_result (.ldhA8A n) s, read_write_highPageAddr s.mem n s.a, ?_⟩,
    step_oneByte rfl, step_ldhA8A⟩
  · rw [result_ldCIndA]
  · rw [result_ldhA8A]

/-- Settles O30: DE is read before A is written, and is `256 * D + E` (`getPair_eq_ofNat`). -/
theorem loadThroughDe : Obligations.LoadThroughDe := by
  have hexec (s : State) : exec .ldADe s = .next { s with a := s.mem.read (getPair s .de), pc := add16 s.pc 1 } := by
    rw [exec_eq_result, result_ldADe, eaDe]
  refine ⟨hexec, fun s hrun hop => ?_⟩
  obtain ⟨hstep, hacc⟩ := step_oneByte (i := .ldADe) rfl hrun hop
  refine ⟨?_, hacc⟩
  rw [hstep, hexec, getPair_eq_ofNat]
  rfl

end Sys2Proof.Machine

namespace Sys2Proof.Machine

/-! ## Arithmetic on a register -/

/-- The increment of a byte over the natural numbers (`42_alu.md` R121). -/
theorem byte_add_one_eq_ofNat (v : Byte) : v + 1#8 = BitVec.ofNat 8 ((v.toNat + 1) % 256) := by bv_omega

theorem result_xorA (s : State) : result .xorA s = { s with a := 0x00#8, pc := add16 s.pc 1 } := by
  rw [add16_eq_add]; rfl

theorem result_incC (s : State) :
    result .incC s = { s with c := BitVec.ofNat 8 ((s.c.toNat + 1) % 256), pc := add16 s.pc 1 } := by
  rw [add16_eq_add, ← byte_add_one_eq_ofNat]; rfl

/-- A one-byte row whose handler calls the Memory Unit for nothing: in a running block at its opcode the fetch is the
only access (`20_memory.md` R59). -/
theorem step_oneByte_registers {i : Instr} {opcode : Byte} (henc : encode i = [opcode])
    (hnone : ∀ s, handlerAccesses i s = []) {s : State} (hrun : s.run = .running) (hop : opcodeAt s = opcode) :
    step s = .next (result i s) ∧ accesses s = [.read s.pc] := by
  rw [← exec_eq_result, ← hnone s]
  exact step_oneByte henc hrun hop

/-! ## Arithmetic on a register: settled -/

/-- Settles O31: a byte XORed with itself is zero, and the whole next state is `result_xorA`'s. -/
theorem xorAClearsAAndWritesNoFlag : Obligations.XorAClearsAAndWritesNoFlag := by
  simp only [Obligations.XorAClearsAAndWritesNoFlag, ← result_xorA]
  exact ⟨exec_eq_result .xorA, fun _ => step_oneByte_registers rfl fun _ => rfl⟩

/-- Settles O32: the byte sum is the sum modulo 256 (`byte_add_one_eq_ofNat`), and the whole next state is
`result_incC`'s. -/
theorem incCWrapsAndWritesNoFlag : Obligations.IncCWrapsAndWritesNoFlag := by
  simp only [Obligations.IncCWrapsAndWritesNoFlag, ← result_incC]
  exact ⟨exec_eq_result .incC, fun _ => step_oneByte_registers rfl fun _ => rfl⟩

end Sys2Proof.Machine

namespace Sys2Proof.Machine

/-! ## Addresses above PC and below SP -/

theorem add16_eq_sub16_iff (a b : Word) (m n : Nat) : add16 a m = sub16 b n ↔ b = add16 a (m + n) := by
  simp only [add16, sub16, ← BitVec.toNat_inj, BitVec.toNat_ofNat, BitVec.toNat_ofInt]
  have hb := b.isLt
  omega

theorem add16_inj {a : Word} {m n : Nat} (hm : m < 65536) (hn : n < 65536) : add16 a m = add16 a n ↔ m = n := by
  simp only [add16, ← BitVec.toNat_inj, BitVec.toNat_ofNat]
  omega

/-- The memory after a push, addressed from the old SP as `44_stack.md` R140 does (D4). -/
theorem read_push16_below_sp (v : Word) (s : State) (x : Word) :
    (push16 params v s).mem.read x =
      if x = sub16 s.sp 2 then lowByte v else if x = sub16 s.sp 1 then highByte v else s.mem.read x := by
  rw [sub16_two, sub16_one, ← eaPush, ← eaPush_add_one]
  by_cases hlow : x = eaPush s
  · rw [if_pos hlow, hlow, read_push16_low]
  · rw [if_neg hlow, read_push16, ← eaPush, if_neg hlow]

theorem ofBytes_read_eq_immediate16 (s : State) :
    ofBytes (s.mem.read (add16 s.pc 1)) (s.mem.read (add16 s.pc 2)) = immediate16 s := by
  rw [← lowByte_immediate16, ← highByte_immediate16, ofBytes_low_high]

/-- The word at PC + 1 is a CALL's operand where the CALL's bytes stand at PC (`30_encoding.md` R83). -/
theorem immediate16_of_holdsAtPc {target : Word} {s : State} (h : HoldsAtPc (.callA16 target) s) :
    immediate16 s = target := by
  have hlow : s.mem.read (add16 s.pc 1) = lowByte target := by
    rw [add16_eq_add]
    exact h 1 (by simp [encode])
  have hhigh : s.mem.read (add16 s.pc 2) = highByte target := by
    rw [add16_eq_add]
    exact h 2 (by simp [encode])
  rw [← ofBytes_read_eq_immediate16, hlow, hhigh, ofBytes_low_high]

/-! ## The state after a jump or a call -/

theorem result_jpNzR8_of_z_clear {s : State} (d : Byte) (hz : getFlag s .z = false) :
    result (.jpNzR8 d) s = { s with pc := BitVec.ofInt 16 (((s.pc.toNat : Int) + 2 + d.toInt) % 65536) } := by
  rw [← add_two_add_displacement, result, hz]
  rfl

theorem result_jpNzR8_of_z_set {s : State} (d : Byte) (hz : getFlag s .z = true) :
    result (.jpNzR8 d) s = { s with pc := add16 s.pc 2 } := by
  rw [add16_eq_add, result, hz]
  rfl

/-- `43_control_transfer.md` R131: the target is a word of the memory that the push leaves (D5). -/
theorem result_callA16 (target : Word) (s : State) :
    result (.callA16 target) s =
      { s with
        sp := sub16 s.sp 2, mem := (push16 params (add16 s.pc 1) s).mem
        pc := (push16 params (add16 s.pc 1) s).mem.read16 (add16 s.pc 1) } := by
  rw [add16_eq_add, sub16_two]
  rfl

/-- The target of a CALL byte by byte: which of its two bytes the push has overwritten, and with which half of PC + 1,
told by where SP stands (`70_reset_and_hazards.md` R201). -/
theorem result_callA16_pc (target : Word) (s : State) :
    (result (.callA16 target) s).pc =
      ofBytes
        (if s.sp = add16 s.pc 3 then lowByte (add16 s.pc 1)
          else if s.sp = add16 s.pc 2 then highByte (add16 s.pc 1) else s.mem.read (add16 s.pc 1))
        (if s.sp = add16 s.pc 4 then lowByte (add16 s.pc 1)
          else if s.sp = add16 s.pc 3 then highByte (add16 s.pc 1) else s.mem.read (add16 s.pc 2)) := by
  have hread := ofBytes_read_eq_immediate16 (push16 params (add16 s.pc 1) s)
  simp only [read_push16_below_sp, push16_pc, add16_eq_sub16_iff] at hread
  rw [result_callA16, hread, immediate16_eq_read16, push16_pc]

/-! ## The step of a jump or a call -/

/-- `43_control_transfer.md` R131: the fetched operand bytes are read again after the push, as the target. -/
theorem step_callA16 {s : State} (hrun : s.run = .running) (hop : opcodeAt s = 0xCD#8) :
    step s = exec (.callA16 (immediate16 s)) s ∧
      accesses s = [.read s.pc, .write (sub16 s.sp 2) (lowByte (add16 s.pc 1)),
        .write (sub16 s.sp 1) (highByte (add16 s.pc 1)), .read (add16 s.pc 1), .read (add16 s.pc 2)] := by
  have hfetch := fetchBytes_eq_of_word (k := .callA16) (fun _ => rfl) hop
  rw [step_eq_result hrun trivial hfetch, exec_eq_result, accesses_eq hrun trivial hfetch, sub16_two, sub16_one,
    ← eaPush_add_one, add16_eq_add, add16_eq_add]
  exact ⟨rfl, rfl⟩

/-! ## Control transfer: settled -/

/-- Settles O33: the two outcomes differ in PC alone, and the operand's read is the row's in both
(`step_byteImmediate`). -/
theorem relativeJumpOnNotZero : Obligations.RelativeJumpOnNotZero := by
  refine ⟨fun d s hz => ?_, fun d s hz => ?_, fun s hrun hop => ?_⟩
  · rw [exec_eq_result, result_jpNzR8_of_z_clear d hz]
  · rw [exec_eq_result, result_jpNzR8_of_z_set d hz]
  · rw [exec_eq_result]
    exact step_byteImmediate (fun _ => trivial) (fun _ => rfl) (fun _ _ => rfl) hrun hop

/-- Settles O34: the next state is the push's but for PC, which is read from the push's memory (`result_callA16`). -/
theorem callPushesThenReadsItsTarget : Obligations.CallPushesThenReadsItsTarget := by
  intro target s
  rw [← immediate16_eq_read16]
  refine ⟨⟨result (.callA16 target) s, exec_eq_result _ s, ?_⟩, step_callA16⟩
  rw [result_callA16]
  exact ⟨rfl, read_push16_below_sp (add16 s.pc 1) s, rfl, rfl⟩

/-- Settles O35: the three places of SP exclude one another (`add16_inj`), so each fixes both bytes of the target
(`result_callA16_pc`). -/
theorem callTargetUnderStackOverlap : Obligations.CallTargetUnderStackOverlap := by
  intro target s t h
  obtain rfl := exec_next h
  rw [result_callA16_pc]
  refine ⟨fun hbytes h2 h3 h4 => ?_, fun hsp => ?_, fun hsp => ?_, fun hsp => ?_⟩
  · rw [if_neg h3, if_neg h2, if_neg h4, if_neg h3, ofBytes_read_eq_immediate16, immediate16_of_holdsAtPc hbytes]
  · simp [hsp, add16_inj, toNat_ofBytes, toNat_highByte]
  · simp [hsp, add16_inj]
  · simp [hsp, add16_inj, toNat_ofBytes, toNat_lowByte]

end Sys2Proof.Machine

namespace Sys2Proof.Machine

/-! ## The push -/

theorem lowByte_getPair (s : State) (p : Pair) : lowByte (getPair s p) = getReg s p.lo := lowByte_ofBytes _ _

theorem highByte_getPair (s : State) (p : Pair) : highByte (getPair s p) = getReg s p.hi := highByte_ofBytes _ _

theorem sub16_one_ne_sub16_two (a : Word) : sub16 a 1 ≠ sub16 a 2 := by
  rw [sub16_one, sub16_two]
  bv_omega

/-- The memory after a push under either setting of `PUSH_LOW_BYTE_ONLY` (`44_stack.md` R140, log entry 4): the high
byte's address is the only place where the setting is asked for. -/
theorem read_push16_of_params (p : Config.Params) (v : Word) (s : State) (x : Word) :
    (push16 p v s).mem.read x =
      if x = sub16 s.sp 1 ∧ p.pushLowByteOnly = false then highByte v
      else if x = sub16 s.sp 2 then lowByte v else s.mem.read x := by
  rw [push16_mem, Memory.read_write16, eaPush_add_one, eaPush, sub16_one, sub16_two]

theorem result_pushBc (s : State) :
    result .pushBc s =
      { s with sp := sub16 s.sp 2, mem := (push16 params (getPair s .bc) s).mem, pc := add16 s.pc 1 } := by
  rw [add16_eq_add, sub16_two]
  rfl

/-- The memory after PUSH BC: the pushed word's low byte is C and its high byte is B (`44_stack.md` R141). -/
theorem read_result_pushBc (s : State) (x : Word) :
    (result .pushBc s).mem.read x =
      if x = sub16 s.sp 2 then s.c else if x = sub16 s.sp 1 then s.b else s.mem.read x := by
  rw [result_pushBc, read_push16_below_sp, lowByte_getPair, highByte_getPair]
  rfl

/-- The handler of PUSH BC writes C at the new SP first, then B above it (`44_stack.md` R141). -/
theorem handlerAccesses_pushBc (s : State) :
    handlerAccesses .pushBc s = [.write (sub16 s.sp 2) s.c, .write (sub16 s.sp 1) s.b] := by
  have hpush : handlerAccesses .pushBc s =
      [.write (eaPush s) (lowByte (getPair s .bc)), .write (eaPush s + 1#16) (highByte (getPair s .bc))] := rfl
  rw [hpush, eaPush_add_one, eaPush, ← sub16_two, ← sub16_one, lowByte_getPair, highByte_getPair]
  rfl

/-! ## Stack: settled -/

/-- Settles O36: the next state is the push's of the pair BC but for PC (`result_pushBc`), whose bytes and whose writes
are C's and B's (`read_result_pushBc`, `handlerAccesses_pushBc`). -/
theorem pushBcStoresCThenB : Obligations.PushBcStoresCThenB := by
  intro s
  rw [← handlerAccesses_pushBc]
  refine ⟨⟨result .pushBc s, exec_eq_result .pushBc s, ?_, read_result_pushBc s, ?_⟩, step_oneByte rfl⟩
  · rw [result_pushBc]
  · rw [result_pushBc]

/-- Settles O37: `read_push16_of_params` at the new SP, at the byte above it, and at every other address. -/
theorem pushSwitchConcernsTheHighByteOnly : Obligations.PushSwitchConcernsTheHighByteOnly := by
  intro p v s
  have hne : sub16 s.sp 1 ≠ sub16 s.sp 2 := sub16_one_ne_sub16_two s.sp
  refine ⟨?_, ?_, ?_, fun x hlow hhigh => ?_⟩
  · rw [push16_sp, eaPush, sub16_two]
  · rw [read_push16_of_params, if_neg (fun h => hne h.1.symm), if_pos rfl]
  · rw [read_push16_of_params, if_neg hne]
    cases p.pushLowByteOnly <;> simp
  · rw [read_push16_of_params, if_neg (fun h => hhigh h.1), if_neg hlow]

end Sys2Proof.Machine

namespace Sys2Proof.Machine

/-! ## The extended decode -/

/-- The row that the extended table gives for a byte is the prefix's own dispatch on it (`45_extended_cb.md` R150). -/
theorem result_decodeExtended (sub : Byte) (s : State) : result (decodeExtended sub) s = result (.prefixCb sub) s := by
  obtain ⟨rfl, h⟩ | ⟨rfl, h⟩ | ⟨hsub, -⟩ := result_prefixCb_cases sub s
  · exact h.symm
  · exact h.symm
  · rw [decodeExtended_of_not_mem hsub]

theorem handlerAccesses_decodeExtended (sub : Byte) (s : State) :
    handlerAccesses (decodeExtended sub) s = operandAccess s := by
  unfold decodeExtended
  split <;> rfl

/-- A running block at the prefix runs the extended table's row of the byte at PC + 1, and that byte's read is the only
access after the fetch (`45_extended_cb.md` R150). -/
theorem step_extended {s : State} {i : Instr} (hrun : s.run = .running) (hop : opcodeAt s = 0xCB#8)
    (hrow : decodeExtended (subOpcodeAt s) = i) :
    step s = exec i s ∧ accesses s = [.read s.pc, .read (add16 s.pc 1)] := by
  have hsub : subOpcodeAt s = s.mem.read (add16 s.pc 1) := by rw [add16_eq_add]; rfl
  rw [← hrow, hsub, exec_eq_result]
  exact step_byteImmediate (fun n => (decodeExtended_spec n).1) (fun n => (decodeExtended_spec n).2)
    handlerAccesses_decodeExtended hrun hop

/-! ## BIT 7,H and RL C over the natural numbers -/

theorem getLsbD_seven (v : Byte) : v.getLsbD 7 = decide (128 ≤ v.toNat) :=
  (BitVec.msb_eq_getLsbD_last v).symm.trans (BitVec.msb_eq_decide v)

theorem bit7Flags_eq_ite (h : Byte) : bit7Flags h = if h.toNat < 128 then 0x01#8 else 0x00#8 := by
  simp only [bit7Flags, getLsbD_seven, decide_eq_true_eq, ← not_lt, ite_not]

theorem result_bit7H (s : State) :
    result .bit7H s = { s with f := if s.h.toNat < 128 then 0x01#8 else 0x00#8, pc := add16 s.pc 2 } := by
  rw [add16_eq_add, ← bit7Flags_eq_ite]; rfl

theorem result_rlC (s : State) :
    result .rlC s =
      { s with
        c := rotateLeft s.c (getFlag s .c), f := rotateFlags params s.c (rotateLeft s.c (getFlag s .c))
        pc := add16 s.pc 2 } := by
  rw [add16_eq_add]; rfl

theorem rotateLeft_eq_shiftConcat (v : Byte) (b : Bool) : rotateLeft v b = v.shiftConcat b := by
  apply BitVec.eq_of_getLsbD_eq
  intro k hk
  cases k <;> simp [rotateLeft, hk]

theorem toNat_rotateLeft (v : Byte) (b : Bool) : (rotateLeft v b).toNat = (2 * v.toNat + b.toNat) % 256 := by
  rw [rotateLeft_eq_shiftConcat, BitVec.toNat_shiftConcat, Nat.shiftLeft_eq, Nat.mul_comm]

/-- Carry is bit 3 of F and Zero bit 0 under the default layout (`10_state.md` R25, log entry 3). -/
theorem writeFlag_params_carry_zero (carry zero : Bool) :
    writeFlag params (writeFlag params 0x00#8 .c carry) .z zero = BitVec.ofNat 8 (8 * carry.toNat + zero.toNat) := by
  cases carry <;> cases zero <;> rfl

theorem toNat_getLsbD_seven (v : Byte) : (v.getLsbD 7).toNat = v.toNat / 128 := by
  have hlt := v.isLt
  rw [getLsbD_seven, Bool.toNat, Bool.cond_decide]
  split <;> omega

/-- F after RL C as one byte, under the default layout (`45_extended_cb.md` R152). -/
theorem rotateFlags_params (oldC newC : Byte) :
    rotateFlags params oldC newC = BitVec.ofNat 8 (8 * (oldC.toNat / 128) + if newC = 0x00#8 then 1 else 0) := by
  rw [rotateFlags, writeFlag_params_carry_zero, toNat_getLsbD_seven, Bool.toNat, Bool.cond_decide]

/-! ## Nine bits in a ring -/

theorem bitVec_rotateLeft_add {w : Nat} (x : BitVec w) (m n : Nat) :
    (x.rotateLeft m).rotateLeft n = x.rotateLeft (m + n) := by
  apply BitVec.eq_of_getMsbD_eq
  intro i hi
  have hlt : (n + i) % w < w := Nat.mod_lt _ (Nat.zero_lt_of_lt hi)
  simp [BitVec.getMsbD_rotateLeft, hi, hlt, Nat.add_assoc]

theorem bitVec_rotateLeft_zero {w : Nat} (x : BitVec w) : x.rotateLeft 0 = x := by
  simp [BitVec.rotateLeft_def, BitVec.ushiftRight_eq_zero]

theorem bitVec_rotateLeft_width {w : Nat} (x : BitVec w) : x.rotateLeft w = x := by
  rw [← BitVec.rotateLeft_mod_eq_rotateLeft, Nat.mod_self, bitVec_rotateLeft_zero]

theorem bitVec_rotateLeft_one_iterate {w : Nat} (x : BitVec w) (n : Nat) :
    (BitVec.rotateLeft · 1)^[n] x = x.rotateLeft n := by
  induction n with
  | zero => exact (bitVec_rotateLeft_zero x).symm
  | succ n ih => rw [Function.iterate_succ_apply', ih, bitVec_rotateLeft_add]

/-- One turn of nine bits takes the top bit of the lower eight to the top, and the old top bit to the bottom. -/
theorem bitVec_rotateLeft_one_cons (b : Bool) (v : Byte) :
    (v.cons b).rotateLeft 1 = (rotateLeft v b).cons (v.getLsbD 7) := by
  apply BitVec.eq_of_getLsbD_eq
  intro k hk
  rw [rotateLeft_eq_shiftConcat]
  simp only [BitVec.getLsbD_rotateLeft, BitVec.getLsbD_cons, BitVec.getLsbD_shiftConcat]
  obtain rfl | rfl | ⟨hlow, htop⟩ : k = 0 ∨ k = 8 ∨ 0 < k ∧ k < 8 := by omega
  · rfl
  · rfl
  · have hbelow : k - 1 ≠ 8 := by omega
    simp [hk, hlow.ne', htop, htop.ne, hbelow]

/-- The nine bits that RL C moves: Carry, and below it C (`45_extended_cb.md` R152). -/
def carryAndC (p : Config.Params) (s : State) : BitVec 9 := s.c.cons (readFlag p s.f .c)

theorem carryAndC_inj {p : Config.Params} {s t : State} (h : carryAndC p s = carryAndC p t) :
    s.c = t.c ∧ readFlag p s.f .c = readFlag p t.f .c := by
  have hc := congrArg (BitVec.setWidth 8) h
  have hcarry := congrArg BitVec.msb h
  simp only [carryAndC, BitVec.setWidth_cons, BitVec.msb_cons] at hc hcarry
  exact ⟨hc, hcarry⟩

/-- RL C is one turn of the nine bits, under every admissible layout. -/
theorem carryAndC_rlCOp {p : Config.Params} (hp : p.Admissible) (s : State) :
    carryAndC p (rlCOp p s) = (carryAndC p s).rotateLeft 1 := by
  obtain ⟨-, -, -, -, hcarry, -⟩ := flagWritersUnderEveryLayout p s hp
  rw [carryAndC, carryAndC, hcarry, rlCOp_c, bitVec_rotateLeft_one_cons]

/-! ## The prefix and the extended instructions: settled -/

/-- Settles O38: each row of the extended table is the prefix's dispatch on its byte (`result_decodeExtended`). -/
theorem prefixDispatchesThroughTheExtendedTable : Obligations.PrefixDispatchesThroughTheExtendedTable := by
  refine ⟨fun s => ?_, fun s => ⟨rfl, result .rlC s, exec_eq_result .rlC s⟩, fun sub s h7C h11 => ?_,
    fun s hrun hop => ?_⟩
  · rw [exec_prefixCb, if_pos rfl, exec_eq_result, result_bit7H]
  · rw [exec_eq_result, result_prefixCb_of_not_mem (not_mem_extendedOpcodes.mpr ⟨h7C, h11⟩), haltedBy]
  · rw [exec_eq_result, ← result_decodeExtended, ← exec_eq_result]
    exact step_extended hrun hop rfl

/-- Settles O39: bit 7 of H is clear exactly where H is below 128 (`bit7Flags_eq_ite`). -/
theorem bitSevenOfHOverwritesF : Obligations.BitSevenOfHOverwritesF := by
  refine ⟨fun s => ?_, fun s hrun hop hsub => step_extended hrun hop (by rw [hsub]; rfl)⟩
  rw [exec_eq_result, result_bit7H]

/-- Settles O40: C is doubled and takes in Carry (`toNat_rotateLeft`); the flags are those of every admissible layout,
put together as one byte of the default one (`rotateFlags_params`). -/
theorem rotateCLeftThroughCarry : Obligations.RotateCLeftThroughCarry := by
  intro s
  obtain ⟨-, hz, hn, hh, hc, hunused⟩ := flagWritersUnderEveryLayout params s (by decide)
  rw [getLsbD_seven] at hc
  refine ⟨⟨result .rlC s, exec_eq_result .rlC s, toNat_rotateLeft s.c _, hc, hz, hn, hh, hunused,
    rotateFlags_params s.c _, ?_⟩, fun hrun hop hsub => step_extended hrun hop (by rw [hsub]; rfl)⟩
  rw [result_rlC]

/-- Settles O41: RL C turns the nine bits by one (`carryAndC_rlCOp`), and nine turns of nine bits are none. -/
theorem nineRotationsRestoreCAndCarry : Obligations.NineRotationsRestoreCAndCarry := by
  intro p s hp
  have hturn : Function.Semiconj (carryAndC p) (rlCOp p) (BitVec.rotateLeft · 1) := carryAndC_rlCOp hp
  apply carryAndC_inj
  calc carryAndC p ((rlCOp p)^[9] s) = (BitVec.rotateLeft · 1)^[9] (carryAndC p s) := hturn.iterate_right 9 s
    _ = (carryAndC p s).rotateLeft 9 := bitVec_rotateLeft_one_iterate _ 9
    _ = carryAndC p s := bitVec_rotateLeft_width _

end Sys2Proof.Machine

namespace Sys2Proof.Machine

/-! ## The fault and the halted block -/

/-- A halted block answers with its report and has no next state (`60_exceptions.md` R171). -/
theorem step_of_halted {s : State} {report : FaultReport} (h : s.run = .haltedOnFault report) :
    step s = .fault (.unimplementedOpcode report) := by
  simp only [step, h]

/-- A step halts the block for the two causes and for nothing else (`60_exceptions.md` R161). -/
theorem run_eq_running_iff_of_step {s t : State} (h : step s = .next t) :
    t.run = .running ↔ ¬ UnmatchedPrimary s ∧ ¬ UnmatchedExtended s := by
  obtain ⟨hrun, hdone⟩ := step_cases h
  constructor
  · intro ht
    constructor <;> intro hun
    · obtain rfl := Host.Outcome.next.inj ((step_of_unmatchedPrimary hrun hun).symm.trans h)
      cases ht
    · obtain rfl := Host.Outcome.next.inj ((step_of_unmatchedExtended hrun hun).symm.trans h)
      cases ht
  · rintro ⟨hprimary, hextended⟩
    obtain ⟨_, _, -, -, ht⟩ | ⟨kind, _, hcause, -⟩ := hdone
    · exact ht
    · cases kind with
      | primary => exact absurd hcause.2 hprimary
      | extended => exact absurd hcause.2 hextended

/-- Nothing is read after a first byte without a row (`60_exceptions.md` R161). -/
theorem accesses_of_unmatchedPrimary {s : State} (hrun : s.run = .running) (h : UnmatchedPrimary s) :
    accesses s = [.read s.pc] := by
  have hd : decode (fetchBytes s) = .error (.unmatchedPrimary (opcodeAt s)) := (decode_eq_unmatched_iff _ _).mpr h
  simp only [accesses, hrun, hd]

/-- Settles O15: the step for either cause is `haltedBy`, which writes the run state alone. -/
theorem faultEntryRecordsAndChangesNothingElse : Obligations.FaultEntryRecordsAndChangesNothingElse := by
  refine ⟨fun s hrun hun => ?_, fun s hrun hun => ?_⟩
  · exact ⟨_, _, step_of_unmatchedPrimary hrun hun, rfl, rfl, rfl, rfl, rfl, rfl⟩
  · have hsub : subOpcodeAt s = s.mem.read (add16 s.pc 1) := by rw [add16_eq_add]; rfl
    exact ⟨_, _, step_of_unmatchedExtended hrun hun, rfl, rfl, rfl, hsub, rfl, rfl⟩

/-- Settles O16: a step's next state runs exactly where no cause holds (`run_eq_running_iff_of_step`), and only the
0xCB row with an unmatched byte can leave another run state (`result_run_of_matched`). -/
theorem stepFaultsExactlyOnUnmatchedBytes : Obligations.StepFaultsExactlyOnUnmatchedBytes := by
  refine ⟨fun s hrun => ?_, fun i s hi => ?_, fun sub s hsub => ?_, fun s => accesses_of_unmatchedPrimary,
    fun s hrun hun => (step_extended hrun hun.1 rfl).2⟩
  · obtain ⟨t, hstep⟩ := exists_step_of_running hrun
    exact ⟨t, hstep, run_eq_running_iff_of_step hstep⟩
  · exact ⟨result i s, exec_eq_result i s, result_run_of_matched (fun sub h => absurd h (hi sub)) s⟩
  · refine ⟨result (.prefixCb sub) s, exec_eq_result _ s, result_run_of_matched (fun sub' h => ?_) s⟩
    obtain rfl := Instr.prefixCb.inj h
    exact hsub

/-- Settles O17: neither a step nor a run looks further than the halted run state. -/
theorem haltedBlockYieldsItsReport : Obligations.HaltedBlockYieldsItsReport :=
  fun _ _ n hhalted => ⟨step_of_halted hhalted, run_of_halted n hhalted⟩

end Sys2Proof.Machine

namespace Sys2Proof.Machine

/-! ## Runs and the steps they take -/

/-- Of `n + 1` steps the first one or the last one may be set apart. -/
theorem stepsTo_succ_iff_last {n : Nat} {s t : State} :
    StepsTo (n + 1) s t ↔ ∃ u, StepsTo n s u ∧ step u = .next t := by
  induction n generalizing s with
  | zero => simp [StepsTo]
  | succ n ih =>
    constructor
    · rintro ⟨v, hfirst, hrest⟩
      obtain ⟨u, hsteps, hlast⟩ := ih.mp hrest
      exact ⟨u, ⟨v, hfirst, hsteps⟩, hlast⟩
    · rintro ⟨u, ⟨v, hfirst, hsteps⟩, hlast⟩
      exact ⟨v, hfirst, ih.mpr ⟨u, hsteps, hlast⟩⟩

/-- A run that begins with `k` steps goes on from where they lead (`70_reset_and_hazards.md` R196). -/
theorem run_add_of_stepsTo {k : Nat} (n : Nat) {s t : State} (h : StepsTo k s t) : run (k + n) s = run n t := by
  induction k generalizing s with
  | zero => rw [h, Nat.zero_add]
  | succ k ih =>
    obtain ⟨u, hstep, hrest⟩ := h
    rw [Nat.add_right_comm, run_succ_of_step _ hstep, ih hrest]

/-- A run that completes took all its steps (`70_reset_and_hazards.md` R197). -/
theorem stepsTo_of_run_completed {n : Nat} {s t : State} (h : run n s = .completed t) : StepsTo n s t := by
  obtain ⟨t', hr, hsteps, -⟩ | ⟨_, _, _, -, hr, -⟩ := run_cases n s
  · obtain rfl : t' = t := by simpa [hr] using h
    exact hsteps
  · simp [hr] at h

/-- A run that faults stopped in the halted state it answers, within its budget (`70_reset_and_hazards.md` R197). -/
theorem stepsTo_of_run_faulted {n : Nat} {s t : State} {report : FaultReport} (h : run n s = .faulted t report) :
    ∃ k ≤ n, StepsTo k s t ∧ t.run = .haltedOnFault report := by
  obtain ⟨_, hr, -⟩ | ⟨k, t', report', hk, hr, hsteps, hhalted⟩ := run_cases n s
  · simp [hr] at h
  · obtain ⟨rfl, rfl⟩ : t' = t ∧ report' = report := by simpa [hr] using h
    exact ⟨k, hk, hsteps, hhalted⟩

/-- The block runs in every state that the steps of a completed run lead to, for a halted one ends the run
(`60_exceptions.md` R171). -/
theorem running_of_run_completed {n k : Nat} {s t u : State} (h : run n s = .completed t) (hk : k ≤ n)
    (hsteps : StepsTo k s u) : u.run = .running := by
  obtain ⟨m, rfl⟩ := Nat.exists_eq_add_of_le hk
  rw [run_add_of_stepsTo m hsteps] at h
  cases hrun : u.run with
  | running => rfl
  | haltedOnFault report => simp [run_of_halted m hrun] at h

/-- A step that halts the block does so for one of the two causes and changes the run state alone (`60_exceptions.md`
R161, R168). -/
theorem unmatched_of_halting_step {u t : State} {report : FaultReport} (h : step u = .next t)
    (hhalted : t.run = .haltedOnFault report) :
    u.run = .running ∧ (UnmatchedPrimary u ∨ UnmatchedExtended u) ∧ t = { u with run := .haltedOnFault report } := by
  obtain ⟨hrun, ⟨_, _, -, -, hrunning⟩ | ⟨kind, opcode, hcause, rfl⟩⟩ := step_cases h
  · simp [hhalted] at hrunning
  · obtain rfl := RunState.haltedOnFault.inj hhalted
    refine ⟨hrun, ?_, rfl⟩
    cases kind with
    | primary => exact .inl hcause.2
    | extended => exact .inr hcause.2

/-- A completed run meets no unmatched opcode: the step after it would have halted the block. -/
theorem matched_of_run_completed {n k : Nat} {s t u : State} (h : run n s = .completed t) (hk : k < n)
    (hsteps : StepsTo k s u) : ¬ UnmatchedPrimary u ∧ ¬ UnmatchedExtended u := by
  obtain ⟨v, hstep⟩ := exists_step_of_running (running_of_run_completed h hk.le hsteps)
  have hnext : StepsTo (k + 1) s v := stepsTo_succ_iff_last.mpr ⟨u, hsteps, hstep⟩
  exact (run_eq_running_iff_of_step hstep).mp (running_of_run_completed h hk hnext)

/-- A running block's run completes, or its last step is one that halts the block (`70_reset_and_hazards.md` R197). -/
theorem run_cases_of_running (n : Nat) {s : State} (hrun : s.run = .running) :
    (∃ t, run n s = .completed t ∧ StepsTo n s t ∧ t.run = .running) ∨
      ∃ k u t report, k < n ∧ StepsTo k s u ∧ u.run = .running ∧ (UnmatchedPrimary u ∨ UnmatchedExtended u) ∧
        step u = .next t ∧ t = { u with run := .haltedOnFault report } ∧ run n s = .faulted t report := by
  obtain hdone | ⟨k, t, report, hk, hr, hsteps, hhalted⟩ := run_cases n s
  · exact .inl hdone
  · cases k with
    | zero =>
      obtain rfl : t = s := hsteps
      simp [hrun] at hhalted
    | succ k =>
      obtain ⟨u, hbefore, hstep⟩ := stepsTo_succ_iff_last.mp hsteps
      obtain ⟨hu, hun, ht⟩ := unmatched_of_halting_step hstep hhalted
      exact .inr ⟨k, u, t, report, hk, hbefore, hu, hun, hstep, ht, hr⟩

/-! ## The image in memory -/

/-- Bytes stored from `a` on, at most one for each address, are read back in their order modulo 65536, and every other
byte reads as before (`20_memory.md` R53, R58). -/
theorem read_storeBytes (m : Memory) (a x : Word) {bytes : List Byte} (hlen : bytes.length ≤ 65536) :
    (storeBytes m a bytes).read x = bytes.getD (x - a).toNat (m.read x) := by
  induction bytes generalizing m a with
  | nil => rfl
  | cons v rest ih =>
    rw [List.length_cons] at hlen
    rw [storeBytes, ih _ _ (by omega), Memory.read_write]
    by_cases hx : x = a
    · subst hx
      -- The rest begins behind `x` and is too short to come round to it.
      have hlast : rest.length ≤ (x - (x + 1#16)).toNat := by bv_omega
      rw [if_pos rfl, List.getD_eq_default _ _ hlast, BitVec.sub_self]
      rfl
    · have hoffset : (x - a).toNat = (x - (a + 1#16)).toNat + 1 := by bv_omega
      rw [if_neg hx, hoffset, List.getD_cons_succ]

/-! ## Creation and runs: settled -/

/-- Settles O22: the run's last step tells how it ends (`run_cases_of_running`), and a completed run meets no unmatched
opcode (`matched_of_run_completed`). -/
theorem runEndsInOneOfTwoWays : Obligations.RunEndsInOneOfTwoWays := by
  intro n s hrun
  refine ⟨run_cases_of_running n hrun, fun ⟨t, hr⟩ k u => matched_of_run_completed hr, fun hmatched => ?_⟩
  obtain ⟨t, hr, -⟩ | ⟨k, u, -, -, hk, hsteps, -, hun, -⟩ := run_cases_of_running n hrun
  · exact ⟨t, hr⟩
  · exact absurd hun (not_or.mpr (hmatched k u hk hsteps))

/-- Settles O23: the steps that the first run took begin the longer one (`run_add_of_stepsTo`), and in a halted block it
ends with the recorded report whatever is left of its budget. -/
theorem runsCompose : Obligations.RunsCompose := by
  refine ⟨fun s => run_zero_of_running, fun n s t => run_succ_of_step n, fun m n s => ⟨fun t hr => ?_,
    fun t report hr => ?_⟩⟩
  · exact run_add_of_stepsTo n (stepsTo_of_run_completed hr)
  · obtain ⟨k, hk, hsteps, hhalted⟩ := stepsTo_of_run_faulted hr
    obtain ⟨j, rfl⟩ := Nat.exists_eq_add_of_le hk
    rw [Nat.add_assoc, run_add_of_stepsTo (j + n) hsteps, run_of_halted (j + n) hhalted]

/-- Settles O11: the image is stored over a zero memory from address 0 on (`read_storeBytes`); nothing else of the reset
state is touched. -/
theorem creationCopiesTheBootImage : Obligations.CreationCopiesTheBootImage := by
  intro image hlen
  refine ⟨_, if_pos hlen, fun r => ?_, rfl, rfl, rfl, fun a => ?_⟩
  · cases r <;> rfl
  · calc (storeBytes State.reset.mem Config.bootBase image).read a
        = image.getD (a - Config.bootBase).toNat (State.reset.mem.read a) := read_storeBytes _ _ _ (by omega)
      _ = image.getD a.toNat 0x00#8 := by rw [Config.bootBase, BitVec.sub_zero]; rfl

end Sys2Proof.Machine

namespace Sys2Proof.Machine

/-! ## Created blocks and the reset state -/

/-- Creation gives a block for images of 256 bytes only, and it is the reset state with the image stored from 0x0000 on
(`70_reset_and_hazards.md` R190). -/
theorem create_eq_next_iff {image : List Byte} {t : State} :
    create image = .next t ↔
      image.length = Config.bootLen ∧
        t = { State.reset with mem := storeBytes State.reset.mem Config.bootBase image } := by
  unfold create
  split
  · next hlen => simp [hlen, eq_comm]
  · next hlen => simp [hlen]

/-- The canonical form lists no byte that is 0x00 (`20_memory.md` R51), so zeros stored in a zero memory leave no cell. -/
theorem storeBytes_nil_replicate_zero (a : Word) (n : Nat) : storeBytes [] a (List.replicate n 0x00#8) = [] := by
  induction n generalizing a with
  | zero => rfl
  | succ n ih => exact ih (a + 1#16)

theorem getReg_reset (r : Reg) : getReg State.reset r = 0x00#8 := by cases r <;> rfl

/-- The zero byte at 0x0000 has no row (vector V60.3). -/
theorem unmatchedPrimary_reset : UnmatchedPrimary State.reset := by decide

/-- Settles O19: the memory lists nothing, F is zero, and a running block has no report. -/
theorem resetMeetsTheInvariant : Obligations.ResetMeetsTheInvariant where
  memory := wf_reset
  flags := BitVec.zero_and
  report := reportDescribes_of_running rfl

/-- Settles O20: a created block is the reset state but for its memory, and storing the image keeps the canonical form. -/
theorem createdBlocksMeetTheInvariant : Obligations.CreatedBlocksMeetTheInvariant := by
  intro image t h
  obtain ⟨-, rfl⟩ := create_eq_next_iff.mp h
  exact ⟨wf_storeBytes _ image wf_reset, resetMeetsTheInvariant.flags, reportDescribes_of_running rfl⟩

/-- Settles O12: creation asks for the image's length alone before it stores anything. -/
theorem otherImageLengthsAreRefused : Obligations.OtherImageLengthsAreRefused :=
  fun _ hlen => if_neg hlen

/-- Settles O13: storing zeros leaves the zero memory as it is (`storeBytes_nil_replicate_zero`), and the first step meets
the unmatched byte 0x00 (`unmatchedPrimary_reset`). -/
theorem resetIsTheBlockOfTheZeroImage : Obligations.ResetIsTheBlockOfTheZeroImage := by
  refine ⟨create_eq_next_iff.mpr ⟨List.length_replicate, ?_⟩, getReg_reset, rfl, rfl, fun _ => rfl, rfl,
    step_of_unmatchedPrimary rfl unmatchedPrimary_reset⟩
  have hmem : storeBytes State.reset.mem Config.bootBase (List.replicate 256 0x00#8) = State.reset.mem :=
    storeBytes_nil_replicate_zero Config.bootBase 256
  rw [hmem]

end Sys2Proof.Machine
